-- ==== Sys2Proof/Word.lean ====
section
/-!
DEFINITION. The block's data types that are bits: a 32-bit word, a trace byte, a pin reading and a transition key.
Bits are numbered from 0 at the least significant bit (00_scope.md R10). The arithmetic on them is in
Machine/Operands.lean.
-/

namespace Sys2Proof

/-- A 32-bit word (R10): a counter value, a queue word (`QW32`, R94), a register that holds a signed value. -/
abbrev Word := BitVec 32

/-- One byte of a trace (`EVT8`, R98). -/
abbrev Byte := BitVec 8

/-- One channel's pin reading (`PIN2`, R95): bit 1 is `pins[c][1]`, bit 0 is `pins[c][0]`. -/
abbrev Pins := BitVec 2

/-- The transition key (`KEY4`, R91): `key[3:2]` the previous reading, `key[1:0]` the current one. -/
abbrev Key := BitVec 4

end Sys2Proof
end

