-- ==== Sys2Proof/Config.lean ====
section
/-!
DEFINITION. What an implementation fixes, and the free values: constants with no body, of which no proof can know a
value.
-/

namespace Sys2Proof

/-- The value of `QDEPTH` in the machine that `State.reset` describes. PRESUMED (log 1): no source gives the capacity;
4 is the spec's default for running examples, marked there as general knowledge (41_output_queue.md R153, G1). Unsafe
for a claim about `State.reset` alone; claims over all states hold for every `QDEPTH`. -/
def Config.defaultQdepth : Nat := 4

/-- `PREV_INIT`, the reset value of `prevPins` (00_scope.md R7, decided `00` in D4). -/
def Config.prevInit : Pins := 0b00#2

/-- The environment's `n`-th free choice of the next event where no trace is placed (R35, R176, U3, U4): bit 3 says
whether a decoder (0) or the sampler's side (1) moves, bit 2 which decoder, bits 1 and 0 the pin reading. Free value
(log 3). -/
opaque Config.freeMove : Nat → BitVec 4

/-- How many free moves come before the move that fairness asks for next, drawn at draw `n` (R175, R200, D24). Free value,
with no bound, as the spec bounds no rate (log 3). -/
opaque Config.freeGap : Nat → Nat

/-- What `SMP.cur` holds after the instruction `RESET`, which leaves it unspecified (R260, U6). Free value (log 4). -/
opaque Config.freeCur : Nat → Word

end Sys2Proof
end

