-- ==== Sys2Proof/Syntax.lean ====
section
/-!
DEFINITION. The instructions: one constructor per row of spec/opcode_table.json. What stands in for an instruction
word is the 4-bit transition key (`KEY4`, 30_encoding.md); the events of a trace (`EVT8`) are the other five rows.
-/

namespace Sys2Proof

/-- The two channels (00_scope.md R3): `L` is channel 0, `R` is channel 1. -/
inductive Channel where
  | L
  | R
  deriving DecidableEq, Repr

/-- The other channel. -/
def Channel.other : Channel → Channel
  | .L => .R
  | .R => .L

/-- The action set of the TransitionTable (10_state.md R29). -/
inductive Action where
  | noChange
  | increment
  | decrement
  deriving DecidableEq, Repr

/-- The rows of the opcode table. A `KEY4` row is a decoder step whose key is the row's; the channel is that of the
decoder at whose table port the key stands, which the four bits of the key do not name (log 6). -/
inductive Instr where
  /-- R121 -/
  | nochange0000 (c : Channel)
  /-- R122 -/
  | nochange0001 (c : Channel)
  /-- R123 -/
  | nochange0010 (c : Channel)
  /-- R124 -/
  | nochange0011 (c : Channel)
  /-- R125 -/
  | increment0100 (c : Channel)
  /-- R126 -/
  | nochange0101 (c : Channel)
  /-- R127 -/
  | nochange0110 (c : Channel)
  /-- R128 -/
  | decrement0111 (c : Channel)
  /-- R129 -/
  | decrement1000 (c : Channel)
  /-- R130 -/
  | nochange1001 (c : Channel)
  /-- R131 -/
  | nochange1010 (c : Channel)
  /-- R132 -/
  | increment1011 (c : Channel)
  /-- R133 -/
  | nochange1100 (c : Channel)
  /-- R134 -/
  | nochange1101 (c : Channel)
  /-- R135 -/
  | nochange1110 (c : Channel)
  /-- R136 -/
  | nochange1111 (c : Channel)
  /-- R170: one decoder step of channel `c` with pin reading `p`. -/
  | dstep (c : Channel) (p : Pins)
  /-- R190: a whole sample call with no other event inside it. -/
  | sample
  /-- R191: begin a sample call. -/
  | sbegin
  /-- R192: the next queue access of the call in flight. -/
  | sstep
  /-- R260 -/
  | reset
  deriving DecidableEq, Repr

/-- The agents that move by themselves (00_scope.md R8): the two decoders and the sampler. -/
inductive Agent where
  | decoder (c : Channel)
  | sampler
  deriving DecidableEq, Repr

/-- The tokens of a written trace: the events (R98) and the shorthands (R100). -/
inductive Token where
  /-- `RESET` -/
  | reset
  /-- `D c pp` -/
  | d (c : Channel) (p : Pins)
  /-- `S` -/
  | call
  /-- `S{` -/
  | callBegin
  /-- `s` -/
  | callAccess
  /-- `PINS c p1 ... pk` -/
  | pins (c : Channel) (ps : List Pins)
  /-- `HOLD c k` -/
  | hold (c : Channel) (k : Nat)
  /-- `BOTH p` -/
  | both (p : Pins)
  deriving DecidableEq, Repr

/-- An encoded word as it is presented to the machine: a `KEY4` key at the table port of decoder `c`, or one `EVT8`
byte of a trace (30_encoding.md R90). The two formats are told apart by where they stand, not by a bit (R101). -/
inductive Code where
  | key4 (c : Channel) (k : Key)
  | evt8 (b : Byte)
  deriving DecidableEq, Repr

end Sys2Proof
end

