-- ==== Sys2Proof/WellFormed.lean ====
section
/-!
DEFINITION. What is well formed: encoded words (30_encoding.md R97, R98), instructions as events of a trace, and traces
(R99). Every term of `Instr` has every operand in range by its type: a key row has a channel, `DSTEP` a channel and one
of the four readings, all of them legal (R95, R97).
-/

namespace Sys2Proof

/-- The encoded words that are some instruction's (R97, R98): every key; of the bytes, `0x00` to `0x07`, `0x40`,
`0x41`, `0x42` and `0x80`. -/
def Code.wf : Code → Bool
  | .key4 _ _ => true
  | .evt8 b => decide (b.toNat < 8) || b == 0x40#8 || b == 0x41#8 || b == 0x42#8 || b == 0x80#8

/-- The instructions that are events of a trace (R98): a key is formed inside a decoder step and is no event. -/
def Instr.isEvent : Instr → Bool
  | .nochange0000 _ | .nochange0001 _ | .nochange0010 _ | .nochange0011 _ => false
  | .increment0100 _ | .nochange0101 _ | .nochange0110 _ | .decrement0111 _ => false
  | .decrement1000 _ | .nochange1001 _ | .nochange1010 _ | .increment1011 _ => false
  | .nochange1100 _ | .nochange1101 _ | .nochange1110 _ | .nochange1111 _ => false
  | .dstep _ _ | .sample | .sbegin | .sstep | .reset => true

/-- The static part of R99 for a trace read with a call possibly in flight (`begun`): every byte is an event, and an
`s` needs an `S{` before it since the last `RESET` (whether the call is still in flight depends on `QDEPTH` and the
queues and is checked by the machine as it runs). -/
def traceWf : Bool → List Byte → Bool
  | _, [] => true
  | begun, b :: rest =>
    (Code.evt8 b).wf
      && (begun || b != 0x42#8)
      && traceWf (if b == 0x41#8 then true else if b == 0x80#8 then false else begun) rest

end Sys2Proof
end

