-- ==== Sys2Proof/Decode.lean ====
section
/-!
DEFINITION. Decoding and encoding: keys and trace bytes to instructions (30_encoding.md R91, R98), instructions to
their words, the stored action code `ACT2` (R93), and the reading of a word numbered as
spec/opcode_table.json numbers it.
-/

namespace Sys2Proof

/-- Why a word is no instruction. -/
inductive DecodeError where
  /-- The byte is no event (R97, R98): the trace is malformed. -/
  | malformedEvent (b : Byte)
  deriving DecidableEq, Repr

/-- Bit 2 of a `D` event's byte: 0 is L, 1 is R (R3, R98). -/
def channelOfBit : Bool → Channel
  | false => .L
  | true => .R

/-- The bit that names a channel. -/
def bitOfChannel : Channel → Bool
  | .L => false
  | .R => true

/-- The row of the opcode table that a key selects (R97: all sixteen are defined), read off the key's four bits, most
significant first (R91). -/
def decodeKey (c : Channel) (k : Key) : Instr :=
  match k.getLsbD 3, k.getLsbD 2, k.getLsbD 1, k.getLsbD 0 with
  | false, false, false, false => .nochange0000 c
  | false, false, false, true => .nochange0001 c
  | false, false, true, false => .nochange0010 c
  | false, false, true, true => .nochange0011 c
  | false, true, false, false => .increment0100 c
  | false, true, false, true => .nochange0101 c
  | false, true, true, false => .nochange0110 c
  | false, true, true, true => .decrement0111 c
  | true, false, false, false => .decrement1000 c
  | true, false, false, true => .nochange1001 c
  | true, false, true, false => .nochange1010 c
  | true, false, true, true => .increment1011 c
  | true, true, false, false => .nochange1100 c
  | true, true, false, true => .nochange1101 c
  | true, true, true, false => .nochange1110 c
  | true, true, true, true => .nochange1111 c

/-- The event a trace byte names (R98); every other byte is malformed. -/
def decodeEvent (b : Byte) : Except DecodeError Instr :=
  if b.extractLsb' 3 5 = 0b00000#5 then .ok (.dstep (channelOfBit (b.getLsbD 2)) (b.extractLsb' 0 2))
  else if b = 0b01000000#8 then .ok .sample
  else if b = 0b01000001#8 then .ok .sbegin
  else if b = 0b01000010#8 then .ok .sstep
  else if b = 0b10000000#8 then .ok .reset
  else .error (.malformedEvent b)

/-- Decoding, total on every word of both formats. -/
def decode : Code → Except DecodeError Instr
  | .key4 c k => .ok (decodeKey c k)
  | .evt8 b => decodeEvent b

/-- The byte of the event `D c pp`: `00000cpp` (R98). -/
def eventByteD (c : Channel) (p : Pins) : Byte :=
  0b00000#5 ++ BitVec.ofBool (bitOfChannel c) ++ p

/-- The word of an instruction, from the encodings of 40_transition_table.md and 30_encoding.md R98. -/
def encode : Instr → Code
  | .nochange0000 c => .key4 c 0b0000#4
  | .nochange0001 c => .key4 c 0b0001#4
  | .nochange0010 c => .key4 c 0b0010#4
  | .nochange0011 c => .key4 c 0b0011#4
  | .increment0100 c => .key4 c 0b0100#4
  | .nochange0101 c => .key4 c 0b0101#4
  | .nochange0110 c => .key4 c 0b0110#4
  | .decrement0111 c => .key4 c 0b0111#4
  | .decrement1000 c => .key4 c 0b1000#4
  | .nochange1001 c => .key4 c 0b1001#4
  | .nochange1010 c => .key4 c 0b1010#4
  | .increment1011 c => .key4 c 0b1011#4
  | .nochange1100 c => .key4 c 0b1100#4
  | .nochange1101 c => .key4 c 0b1101#4
  | .nochange1110 c => .key4 c 0b1110#4
  | .nochange1111 c => .key4 c 0b1111#4
  | .dstep c p => .evt8 (eventByteD c p)
  | .sample => .evt8 0x40#8
  | .sbegin => .evt8 0x41#8
  | .sstep => .evt8 0x42#8
  | .reset => .evt8 0x80#8

/-- `ACT2` (R93): the 2-bit code of an action. -/
def encodeAct2 : Action → BitVec 2
  | .noChange => 0b00#2
  | .increment => 0b01#2
  | .decrement => 0b11#2

/-- Reading a stored action code. Code `10` is reserved: a table that holds it is not the TransitionTable and is
refused (R93, R97, U7). -/
def decodeAct2 (a : BitVec 2) : Option Action :=
  if a = 0b00#2 then some .noChange
  else if a = 0b01#2 then some .increment
  else if a = 0b11#2 then some .decrement
  else none

/-- The byte of an event (a key is no event and has none of its own). -/
def byteOf (i : Instr) : Byte :=
  match encode i with
  | .evt8 b => b
  | .key4 _ _ => 0xFF#8

/-- The word that the host's numbering of the opcode table's bits names. The table gives a `KEY4` row 4 bits and an
`EVT8` row 8, and in whole bytes both are 8: a value below 16 is then a key of the hardware's own format, at decoder L's
port (channel 0), and every other value an event byte (log 7). -/
def tableCode (nbits w : Nat) : Code :=
  if nbits ≤ 8 ∧ w < 16 then .key4 .L (BitVec.ofNat 4 w) else .evt8 (BitVec.ofNat 8 w)

/-- The instruction the decoder reads from a word numbered as spec/opcode_table.json numbers it. -/
def decodeTableWord (nbits w : Nat) : Option Instr :=
  match decode (tableCode nbits w) with
  | .ok i => some i
  | .error _ => none

end Sys2Proof
end

