-- ==== Sys2Proof/Machine/Operands.lean ====
section
/-!
DEFINITION. The arithmetic primitives (00_scope.md R11) and the operand forms: the assembly of the key (30_encoding.md
R92), its two fields (R91), and the adjustment of an action (R93, R170).
-/

namespace Sys2Proof.Machine

/-- The word congruent to `n` modulo 2^32. -/
def wrap32 (n : Int) : Word := BitVec.ofInt 32 n

/-- A word read as a signed integer: if bit 31 is set, subtract 2^32. -/
def s32 (w : Word) : Int := if w.getLsbD 31 then (w.toNat : Int) - 2 ^ 32 else (w.toNat : Int)

/-- The word that holds a signed value. -/
def u32 (v : Int) : Word := wrap32 v

/-- The counter's update, modulo 2^32. -/
def add32 (w : Word) (k : Int) : Word := wrap32 ((w.toNat : Int) + k)

/-- Signed subtraction, wrapped to 32 bits. -/
def sub32 (a b : Int) : Int := s32 (wrap32 (a - b))

/-- Signed negation, wrapped to 32 bits. -/
def neg32 (a : Int) : Int := s32 (wrap32 (-a))

/-- Two bits read as a signed integer. -/
def sext2 (a : BitVec 2) : Int := ((a.getLsbD 0).toNat : Int) - 2 * ((a.getLsbD 1).toNat : Int)

/-- Padding with zero bits on the left. -/
def zext {k : Nat} (n : Nat) (v : BitVec k) : BitVec n := BitVec.ofNat n v.toNat

/-- The key `{prev, p}`, that is `4 * prev + p` (R92). -/
def keyOf (prev p : Pins) : Key := prev ++ p

/-- `key[3:2]` (R91). -/
def keyPrev (k : Key) : Pins := k.extractLsb' 2 2

/-- `key[1:0]` (R91). -/
def keyCur (k : Key) : Pins := k.extractLsb' 0 2

/-- The count adjustment of an action (R170), which is its stored code read as a signed number (R93). -/
def adj (a : Action) : Int := sext2 (encodeAct2 a)

/-- The raw delta of a consulted value, before the suppression: `sub32(previousSample, cur)` (43_velocity_sampler.md
R196), as the word the register holds. -/
def rawDelta (previousSample cur : Word) : Word := u32 (sub32 (s32 previousSample) (s32 cur))

/-- The right channel's output negation (R203), as a word. -/
def negated (delta : Word) : Word := u32 (neg32 (s32 delta))

end Sys2Proof.Machine
end

