-- ==== Sys2Proof/Machine/State.lean ====
section
/-!
DEFINITION. The state of the block (10_state.md R20), the reasons a step can stop, and the state after reset
(70_reset_and_hazards.md R260). `TT` is a constant and no field (R35).
-/

namespace Sys2Proof.Machine

/-- The registers and the queue of one channel (R20). A register that holds a signed value `v` holds the word `u32(v)`
(00_scope.md R11). -/
structure ChannelState where
  /-- R21: the running counter, owned by the decoder. -/
  runningCount : Word
  /-- R27: the reading of the channel's latest decoder step. -/
  prevPins : Pins
  /-- R28: the OutputQueue, oldest word first. -/
  queue : List Word
  /-- R22: the counter value the sampler consulted last. -/
  previousSample : Word
  /-- R24: the glitch-filter register. -/
  firstNonzeroSeen : Bool
  /-- R23: the raw delta of the latest sample call, before the right channel's negation. -/
  lastDelta : Word
  deriving DecidableEq, Repr

/-- `SMP.phase` (R30): no call in flight, or the next queue access is a `QTRYPOP(c)` and the call has already popped
`n` words from `Q[c]`. -/
inductive Phase where
  | idle
  | acc (c : Channel) (n : Nat)
  deriving DecidableEq, Repr

/-- The machine. The last four fields are the model's own: the parameter `QDEPTH`, the placed events, the pairs
returned so far, and the number of free values drawn. -/
structure State where
  /-- `CH[L]` and `Q[L]`. -/
  left : ChannelState
  /-- `CH[R]` and `Q[R]`. -/
  right : ChannelState
  /-- R30 -/
  smpPhase : Phase
  /-- R30: `currentValue` of the call in flight; meaningful only while draining. -/
  smpCur : Word
  /-- R39: the held first component of the last returned pair. -/
  outL : Word
  /-- R39: the held second component of the last returned pair. -/
  outR : Word
  /-- The parameter `QDEPTH` (R7), which no event writes (log 1). -/
  qdepth : Nat
  /-- The events the environment has lined up, next one first (R98, log 2). -/
  trace : List Byte
  /-- The pairs returned so far, oldest first: the observation of the run (R9, log 5). -/
  returned : List (Word × Word)
  /-- How many free values have been drawn (log 3, log 4). -/
  drawn : Nat
  deriving DecidableEq, Repr

/-- Why the machine stops with a fault. -/
inductive Fault where
  /-- Raised by SAMPLE and SBEGIN while a call is in flight (60_exceptions.md R241): the document defines no behaviour
  for an overlapping call, and no behaviour may be picked. Safe: every claim takes its absence as a premise (D17). -/
  | samplerReentry
  deriving DecidableEq, Repr

/-- Why an event is refused. -/
inductive Refusal where
  /-- Raised by `exec` for an instruction that has no meaning yet. Safe. -/
  | notModelled (mnemonic : String)
  /-- Raised by the trace reader in `step` for a byte that is no event (R97, R98, U8). Safe: no such input exists. -/
  | malformedEvent (b : Byte)
  /-- Raised by SSTEP with no call in flight: the trace is malformed (R99, U8). Safe: no such input exists. -/
  | sstepOutsideCall
  deriving DecidableEq, Repr

/-- A channel right after reset (R260). -/
def ChannelState.reset : ChannelState where
  runningCount := 0x00000000#32
  prevPins := Config.prevInit
  queue := []
  previousSample := 0#32
  firstNonzeroSeen := false
  lastDelta := 0#32

/-- The block right after reset (R260), for a given `QDEPTH`. `SMP.cur` is unspecified: DESIGN CHOICE zero (log 4). -/
def State.resetOf (qdepth : Nat) : State where
  left := ChannelState.reset
  right := ChannelState.reset
  smpPhase := .idle
  smpCur := 0#32
  outL := 0#32
  outR := 0#32
  qdepth := qdepth
  trace := []
  returned := []
  drawn := 0

/-- The machine right after reset, with the example value of `QDEPTH` (log 1). -/
def State.reset : State := State.resetOf Config.defaultQdepth

end Sys2Proof.Machine
end

