-- ==== Sys2Proof/Machine/Flags.lean ====
section
/-!
DEFINITION. The status conditions: `EMPTY(c)`, `FULL(c)` (10_state.md R25), `SMP.busy` (R26), and the glitch filter's
test and update (43_velocity_sampler.md R197).
-/

namespace Sys2Proof.Machine

/-- `EMPTY(c)` of a queue (R25). -/
def queueEmpty (q : List Word) : Bool := q.length == 0

/-- `FULL(c)` of a queue whose capacity is `qdepth` (R25). -/
def queueFull (qdepth : Nat) (q : List Word) : Bool := !decide (q.length < qdepth)

/-- `SMP.busy`: a sample call is in flight (R26). -/
def busy (s : State) : Bool := s.smpPhase != .idle

/-- Step 4's test: the bit is 0 and the consulted value is not zero, no absolute value taken (R197, D14). -/
def glitchFires (firstNonzeroSeen : Bool) (cur : Word) : Bool := !firstNonzeroSeen && decide (s32 cur ≠ 0)

/-- The glitch-filter register after a consulted value: set by step 4, never cleared by it (R197, R24). -/
def glitchNext (firstNonzeroSeen : Bool) (cur : Word) : Bool := firstNonzeroSeen || glitchFires firstNonzeroSeen cur

/-- The raw delta of a consulted value after step 4: forced to 0 where the filter fires, step 3's delta otherwise
(R196, R197, R237 (e)). -/
def consultedDelta (previousSample : Word) (firstNonzeroSeen : Bool) (cur : Word) : Word :=
  if glitchFires firstNonzeroSeen cur then 0#32 else rawDelta previousSample cur

end Sys2Proof.Machine
end

