-- ==== Sys2Proof/Machine/Table.lean ====
section
/-!
DEFINITION. The TransitionTable ROM (40_transition_table.md R120): the action of each key, and the table as one 32-bit
constant (30_encoding.md R93).
-/

namespace Sys2Proof.Machine

/-- `TT[key]` (R61, R120): total, constant, no side effect. The key's bits stand most significant first. Only `0100`,
`0111`, `1000` and `1011` count (R142). -/
def transitionTable (k : Key) : Action :=
  match k.getLsbD 3, k.getLsbD 2, k.getLsbD 1, k.getLsbD 0 with
  | false, false, false, false => .noChange
  | false, false, false, true => .noChange
  | false, false, true, false => .noChange
  | false, false, true, true => .noChange
  | false, true, false, false => .increment
  | false, true, false, true => .noChange
  | false, true, true, false => .noChange
  | false, true, true, true => .decrement
  | true, false, false, false => .decrement
  | true, false, false, true => .noChange
  | true, false, true, false => .noChange
  | true, false, true, true => .increment
  | true, true, false, false => .noChange
  | true, true, false, true => .noChange
  | true, true, true, false => .noChange
  | true, true, true, true => .noChange

/-- The ROM as bits, entry `k` in bits `[2k+1:2k]` (R93). -/
def romWord : Word := 0x0043C100#32

/-- Entry `k` of a ROM held as bits, refused where its code is reserved (R93, U7). -/
def romEntry (rom : Word) (k : Key) : Option Action := decodeAct2 (rom.extractLsb' (2 * k.toNat) 2)

end Sys2Proof.Machine
end

