-- ==== Sys2Proof/Machine/Ops.lean ====
section
/-!
DEFINITION. The named operations over the state: the channel accessors, the two queue primitives (41_output_queue.md
R151, R152), the body of a decoder step (42_edge_decoder.md R170), the parts of a sample call (43_velocity_sampler.md
R192 to R198), and the beginning and the return of a call, which are all the block has in place of trap entry and return
(60_exceptions.md R238).
-/

namespace Sys2Proof.Machine

/-- `CH[c]` with `Q[c]`. -/
def State.ch (s : State) : Channel → ChannelState
  | .L => s.left
  | .R => s.right

/-- Replaces `CH[c]` with `Q[c]`. -/
def State.setCh (s : State) (c : Channel) (x : ChannelState) : State :=
  match c with
  | .L => { s with left := x }
  | .R => { s with right := x }

/-- The stored data are in their canonical form: each queue holds at most `QDEPTH` words (R20, R36 (a)). The block has
no other memory (R33). -/
abbrev Memory.wf (s : State) : Prop := s.left.queue.length ≤ s.qdepth ∧ s.right.queue.length ≤ s.qdepth

/-- `QPUSH(c, w)` (R151): appends at the tail; on a full queue `w` is dropped and nothing records it. -/
def qpush (c : Channel) (w : Word) (s : State) : State :=
  if queueFull s.qdepth (s.ch c).queue then s
  else s.setCh c { s.ch c with queue := (s.ch c).queue ++ [w] }

/-- `QTRYPOP(c)` (R152): removes and returns the oldest word; on an empty queue `none`, and nothing changes. -/
def qtrypop (c : Channel) (s : State) : Option Word × State :=
  match (s.ch c).queue with
  | [] => (none, s)
  | w :: rest => (some w, s.setCh c { s.ch c with queue := rest })

/-- Steps 2 and 3 of a decoder step (R172): the table's action applied to the counter. -/
def applyAction (c : Channel) (a : Action) (s : State) : State :=
  s.setCh c { s.ch c with runningCount := add32 (s.ch c).runningCount (adj a) }

/-- Step 4 (R173): the updated counter is pushed, whatever the action. -/
def pushCount (c : Channel) (s : State) : State := qpush c (s.ch c).runningCount s

/-- End of the step (R174): the reading becomes the previous reading. -/
def latchPins (c : Channel) (p : Pins) (s : State) : State := s.setCh c { s.ch c with prevPins := p }

/-- A decoder step of channel `c` whose key is `k`, one atomic event (R66, R170). -/
def stepAtKey (c : Channel) (k : Key) (s : State) : State :=
  latchPins c (keyCur k) (pushCount c (applyAction c (transitionTable k) s))

/-- The key of a decoder step with reading `p` (R171). -/
def presentedKey (c : Channel) (p : Pins) (s : State) : Key := keyOf (s.ch c).prevPins p

/-- The beginning of a sample call (R191, R238): nothing is saved, only the phase changes. An overlapping call has no
behaviour (R241). -/
def beginCall (s : State) : Host.Outcome State Fault Refusal :=
  if busy s then .fault .samplerReentry else .next { s with smpPhase := .acc .L 0 }

/-- The return of a sample call (R203): `emit Return(lastDelta[L], neg32(lastDelta[R]))`, the pair held at the output
(R39), and no call in flight. -/
def returnPair (s : State) : State :=
  { s with
    smpPhase := .idle
    outL := s.left.lastDelta
    outR := negated s.right.lastDelta
    returned := s.returned ++ [(s.left.lastDelta, negated s.right.lastDelta)] }

/-- Step 2, first part (R194): the popped word becomes `currentValue`. -/
def consult (w : Word) (s : State) : State := { s with smpCur := w }

/-- Steps 1 and 5 on an empty queue (R193, R198): delta 0, everything else kept. -/
def storeEmptyDelta (c : Channel) (s : State) : State := s.setCh c { s.ch c with lastDelta := 0#32 }

/-- Steps 3 to 5 with the consulted value in `SMP.cur` (R196 to R198). -/
def storeConsultedDelta (c : Channel) (s : State) : State :=
  s.setCh c
    { s.ch c with
      lastDelta := consultedDelta (s.ch c).previousSample (s.ch c).firstNonzeroSeen s.smpCur
      firstNonzeroSeen := glitchNext (s.ch c).firstNonzeroSeen s.smpCur
      previousSample := s.smpCur }

/-- What `FIN(c, d)` does after storing the delta (R192): on to channel R, or the return. -/
def leaveChannel (c : Channel) (s : State) : State :=
  match c with
  | .L => { s with smpPhase := .acc .R 0 }
  | .R => returnPair s

/-- Step 2, second part (R195): at most `k` more accesses, each word thrown away, until one finds the queue empty. -/
def drain (c : Channel) : Nat → State → State
  | 0, s => s
  | k + 1, s =>
    match qtrypop c s with
    | (none, s') => s'
    | (some _, s') => drain c k s'

/-- `SAMPLE_CH(c)` (R190): at most `QDEPTH` accesses, the first pop counted (R195). -/
def sampleChannel (c : Channel) (s : State) : State :=
  match qtrypop c s with
  | (none, s') => storeEmptyDelta c s'
  | (some w, s') => storeConsultedDelta c (drain c (s.qdepth - 1) (consult w s'))

/-- One queue access of a call that stands at `ACC(c, n)`, with the computation attached to it (R192). In a state no run
reaches (`n ≥ QDEPTH`, or `QDEPTH = 0`) the rule's text is followed to the letter (log 9). -/
def accessQueue (c : Channel) (n : Nat) (s : State) : State :=
  match qtrypop c s with
  | (none, s') => leaveChannel c (if n = 0 then storeEmptyDelta c s' else storeConsultedDelta c s')
  | (some w, s') =>
    let t := if n = 0 then consult w s' else s'
    if n + 1 = s.qdepth then leaveChannel c (storeConsultedDelta c t) else { t with smpPhase := .acc c (n + 1) }

end Sys2Proof.Machine
end

