-- ==== Sys2Proof/Machine/Decoder.lean ====
section
/-! DEFINITION. The Edge Transition Decoder's one operation, `DSTEP(c, p)` (42_edge_decoder.md R170). -/

namespace Sys2Proof.Machine

/-- `DSTEP(c, p)` (R170): the key is `{prevPins, p}` (R171); no state of a queue or of the sampler delays it (R175). -/
def execDstep (c : Channel) (p : Pins) (s : State) : Host.Outcome State Fault Refusal :=
  .next (stepAtKey c (presentedKey c p s) s)

end Sys2Proof.Machine
end

