-- ==== Sys2Proof/Machine/Keys.lean ====
section
/-!
DEFINITION. The sixteen `KEY4` rows (40_transition_table.md R121 to R136): a decoder step of channel `c` at the row's
key. The action is the table's; the step also pushes and latches (R173, R174).
-/

namespace Sys2Proof.Machine

/-- `NOCHANGE.0000` (R121). -/
def execNochange0000 (c : Channel) (s : State) : Host.Outcome State Fault Refusal := .next (stepAtKey c 0b0000#4 s)

/-- `NOCHANGE.0001` (R122). -/
def execNochange0001 (c : Channel) (s : State) : Host.Outcome State Fault Refusal := .next (stepAtKey c 0b0001#4 s)

/-- `NOCHANGE.0010` (R123). -/
def execNochange0010 (c : Channel) (s : State) : Host.Outcome State Fault Refusal := .next (stepAtKey c 0b0010#4 s)

/-- `NOCHANGE.0011` (R124). -/
def execNochange0011 (c : Channel) (s : State) : Host.Outcome State Fault Refusal := .next (stepAtKey c 0b0011#4 s)

/-- `INCREMENT.0100` (R125). -/
def execIncrement0100 (c : Channel) (s : State) : Host.Outcome State Fault Refusal := .next (stepAtKey c 0b0100#4 s)

/-- `NOCHANGE.0101` (R126). -/
def execNochange0101 (c : Channel) (s : State) : Host.Outcome State Fault Refusal := .next (stepAtKey c 0b0101#4 s)

/-- `NOCHANGE.0110` (R127). -/
def execNochange0110 (c : Channel) (s : State) : Host.Outcome State Fault Refusal := .next (stepAtKey c 0b0110#4 s)

/-- `DECREMENT.0111` (R128). -/
def execDecrement0111 (c : Channel) (s : State) : Host.Outcome State Fault Refusal := .next (stepAtKey c 0b0111#4 s)

/-- `DECREMENT.1000` (R129). -/
def execDecrement1000 (c : Channel) (s : State) : Host.Outcome State Fault Refusal := .next (stepAtKey c 0b1000#4 s)

/-- `NOCHANGE.1001` (R130). -/
def execNochange1001 (c : Channel) (s : State) : Host.Outcome State Fault Refusal := .next (stepAtKey c 0b1001#4 s)

/-- `NOCHANGE.1010` (R131). -/
def execNochange1010 (c : Channel) (s : State) : Host.Outcome State Fault Refusal := .next (stepAtKey c 0b1010#4 s)

/-- `INCREMENT.1011` (R132). -/
def execIncrement1011 (c : Channel) (s : State) : Host.Outcome State Fault Refusal := .next (stepAtKey c 0b1011#4 s)

/-- `NOCHANGE.1100` (R133). -/
def execNochange1100 (c : Channel) (s : State) : Host.Outcome State Fault Refusal := .next (stepAtKey c 0b1100#4 s)

/-- `NOCHANGE.1101` (R134). -/
def execNochange1101 (c : Channel) (s : State) : Host.Outcome State Fault Refusal := .next (stepAtKey c 0b1101#4 s)

/-- `NOCHANGE.1110` (R135). -/
def execNochange1110 (c : Channel) (s : State) : Host.Outcome State Fault Refusal := .next (stepAtKey c 0b1110#4 s)

/-- `NOCHANGE.1111` (R136). -/
def execNochange1111 (c : Channel) (s : State) : Host.Outcome State Fault Refusal := .next (stepAtKey c 0b1111#4 s)

end Sys2Proof.Machine
end

