-- ==== Sys2Proof/Machine/Reset.lean ====
section
/-! DEFINITION. `RESET` as an event of a run (70_reset_and_hazards.md R260, R261). -/

namespace Sys2Proof.Machine

/-- A channel's elements at their reset values (R260); all of them, since no partial reset exists (R261). -/
def clearedChannel : ChannelState where
  runningCount := 0x00000000#32
  prevPins := Config.prevInit
  queue := []
  previousSample := 0#32
  firstNonzeroSeen := false
  lastDelta := 0#32

/-- `RESET` (R260, R261): every element at its reset value, the queues emptied, a call in flight abandoned without a
return. `SMP.cur` is unspecified: a free value (log 4). The parameter, the events still lined up and the pairs already
returned are no state of the block and stay (log 5). -/
def execReset (s : State) : Host.Outcome State Fault Refusal :=
  .next
    { s with
      left := clearedChannel
      right := clearedChannel
      smpPhase := .idle
      smpCur := Config.freeCur s.drawn
      outL := 0#32
      outR := 0#32
      drawn := s.drawn + 1 }

end Sys2Proof.Machine
end

