-- ==== Sys2Proof/Machine/Sampler.lean ====
section
/-! DEFINITION. The Velocity Sampler's events (43_velocity_sampler.md R190 to R192). -/

namespace Sys2Proof.Machine

/-- `SAMPLE` (R190): a whole call with no other event inside it. Channel L first (R191, D16). -/
def execSample (s : State) : Host.Outcome State Fault Refusal :=
  if busy s then .fault .samplerReentry
  else .next (returnPair (sampleChannel .R (sampleChannel .L s)))

/-- `SBEGIN` (R191): touches no queue. -/
def execSbegin (s : State) : Host.Outcome State Fault Refusal := beginCall s

/-- `SSTEP` (R192). With no call in flight the trace is malformed (R99). -/
def execSstep (s : State) : Host.Outcome State Fault Refusal :=
  match s.smpPhase with
  | .idle => .refused .sstepOutsideCall
  | .acc c n => .next (accessQueue c n s)

end Sys2Proof.Machine
end

