-- ==== Sys2Proof/Machine/Dispatch.lean ====
section
/-! DEFINITION. The dispatch: one arm per constructor of `Instr`. -/

namespace Sys2Proof.Machine

def exec (i : Instr) (s : State) : Host.Outcome State Fault Refusal :=
  match i with
  | .nochange0000 c => Sys2Proof.Machine.execNochange0000 c s
  | .nochange0001 c => Sys2Proof.Machine.execNochange0001 c s
  | .nochange0010 c => Sys2Proof.Machine.execNochange0010 c s
  | .nochange0011 c => Sys2Proof.Machine.execNochange0011 c s
  | .increment0100 c => Sys2Proof.Machine.execIncrement0100 c s
  | .nochange0101 c => Sys2Proof.Machine.execNochange0101 c s
  | .nochange0110 c => Sys2Proof.Machine.execNochange0110 c s
  | .decrement0111 c => Sys2Proof.Machine.execDecrement0111 c s
  | .decrement1000 c => Sys2Proof.Machine.execDecrement1000 c s
  | .nochange1001 c => Sys2Proof.Machine.execNochange1001 c s
  | .nochange1010 c => Sys2Proof.Machine.execNochange1010 c s
  | .increment1011 c => Sys2Proof.Machine.execIncrement1011 c s
  | .nochange1100 c => Sys2Proof.Machine.execNochange1100 c s
  | .nochange1101 c => Sys2Proof.Machine.execNochange1101 c s
  | .nochange1110 c => Sys2Proof.Machine.execNochange1110 c s
  | .nochange1111 c => Sys2Proof.Machine.execNochange1111 c s
  | .dstep c p => Sys2Proof.Machine.execDstep c p s
  | .sample => Sys2Proof.Machine.execSample s
  | .sbegin => Sys2Proof.Machine.execSbegin s
  | .sstep => Sys2Proof.Machine.execSstep s
  | .reset => Sys2Proof.Machine.execReset s

end Sys2Proof.Machine
end

