-- ==== Sys2Proof/Machine/Fetch.lean ====
section
/-!
DEFINITION. Where the next event comes from. The block fetches no program (10_state.md R31); its inputs are a schedule
of events and a pin reading for each decoder step (R35). A placed trace gives them (30_encoding.md R98); where none is
placed, the environment's choice is a free value (R68, R176, U3, U4) under weak fairness (R175, R200, D24), and the
decoders go on (R245).
-/

namespace Sys2Proof.Machine

/-- The event of a free choice `m`: a decoder step with a free reading, or a move of the sampler's side, which with no
call in flight is an invocation, and with one in flight its next access or (choice `1111`) the environment's breach of
its duty not to overlap calls (R241) (log 3). -/
def drawnEvent (m : BitVec 4) (callInFlight : Bool) : Instr :=
  if m.getLsbD 3 = false then .dstep (channelOfBit (m.getLsbD 2)) (m.extractLsb' 0 2)
  else if callInFlight = false then .sbegin
  else if m = 0b1111#4 then .sbegin
  else .sstep

/-- The agent whose turn comes after. -/
def nextAgent : Agent → Agent
  | .decoder .L => .decoder .R
  | .decoder .R => .sampler
  | .sampler => .decoder .L

/-- The agent that fairness asks to move next, and how many free moves come first, at draw `n`. The agents take turns and
the gaps are free, so every fair schedule is one of these and each of these is fair (log 3). -/
def fairTurn : Nat → Agent × Nat
  | 0 => (.decoder .L, Config.freeGap 0)
  | n + 1 =>
    match fairTurn n with
    | (a, 0) => (nextAgent a, Config.freeGap (n + 1))
    | (a, k + 1) => (a, k)

/-- The event that fairness asks of an agent, `m` giving the reading: a decoder's step (R175), and of a call in flight its
next access (R200). No call need ever be invoked (R206), so with none in flight the sampler's turn is a free move. -/
def fairEvent (a : Agent) (m : BitVec 4) (callInFlight : Bool) : Instr :=
  match a with
  | .decoder c => .dstep c (m.extractLsb' 0 2)
  | .sampler => if callInFlight then .sstep else drawnEvent m callInFlight

/-- The environment's choice at draw `n`: a free move, or the move that fairness asks for. -/
def choiceAt (n : Nat) (callInFlight : Bool) : Instr :=
  match fairTurn n with
  | (a, 0) => fairEvent a (Config.freeMove n) callInFlight
  | (_, _ + 1) => drawnEvent (Config.freeMove n) callInFlight

/-- The byte of the next event: the head of the placed trace, or the environment's choice. -/
def nextByte (s : State) : Byte :=
  match s.trace with
  | b :: _ => b
  | [] => byteOf (choiceAt s.drawn (busy s))

/-- The next event. -/
def nextEvent (s : State) : Except DecodeError Instr := decode (.evt8 (nextByte s))

/-- The state after the next event has been taken in: the trace moves on, or the choice counts as drawn. -/
def consumeEvent (s : State) : State :=
  match s.trace with
  | _ :: rest => { s with trace := rest }
  | [] => { s with drawn := s.drawn + 1 }

/-- The trace reader's refusal of a word (R97). -/
def refusalOf : DecodeError → Refusal
  | .malformedEvent b => .malformedEvent b

/-- Places an event byte in front of the trace. An `s` is an event only while a call is in flight (R99), so with none
in flight one is put in flight at its first access, as `S{` would (log 7). -/
def placeEvent (b : Byte) (s : State) : State :=
  let t := { s with trace := b :: s.trace }
  if b = 0x42#8 ∧ s.smpPhase = .idle then { t with smpPhase := .acc .L 0 } else t

/-- Places a key at decoder `c`'s table port: the step that presents it is the one whose previous reading is `key[3:2]`
and whose reading is `key[1:0]` (R171). -/
def placeKey (c : Channel) (k : Key) (s : State) : State :=
  let t := latchPins c (keyPrev k) s
  { t with trace := eventByteD c (keyCur k) :: s.trace }

/-- Places a word of either format. -/
def placeCode (w : Code) (s : State) : State :=
  match w with
  | .key4 c k => placeKey c k s
  | .evt8 b => placeEvent b s

end Sys2Proof.Machine
end

