-- ==== Sys2Proof/Machine/Step.lean ====
section
/-! DEFINITION. One step: the next event is taken in, decoded and executed (20_memory.md R68). -/

namespace Sys2Proof.Machine

/-- One atomic event. A malformed byte is met when the run gets to it (log 11). -/
def step (s : State) : Host.Outcome State Fault Refusal :=
  match nextEvent s with
  | .ok i => exec i (consumeEvent s)
  | .error e => .refused (refusalOf e)

/-- The state in which the very next step runs the instruction whose bits, numbered as the opcode table numbers them,
are `w` (log 7). -/
def State.withFetchWord (s : State) (nbits w : Nat) : State := placeCode (tableCode nbits w) s

end Sys2Proof.Machine
end

