-- ==== Sys2Proof/Machine/Trace.lean ====
section
/-!
DEFINITION. Written traces: the expansion of the shorthands where they stand (30_encoding.md R100), and the encoding of a
program, which is its byte string and the keys its decoder steps present.
-/

namespace Sys2Proof.Machine

/-- `PINS c p1 ... pk` (R100). -/
def pinsEvents (c : Channel) (ps : List Pins) : List Instr := ps.map (.dstep c)

/-- `HOLD c k` in state `s` (R100): `k` steps at the channel's current `prevPins`. -/
def holdEvents (c : Channel) (k : Nat) (s : State) : List Instr := List.replicate k (.dstep c (s.ch c).prevPins)

/-- `BOTH p` (R100). -/
def bothEvents (p : Pins) : List Instr := [.dstep .L p, .dstep .R p]

/-- The events of a token that stands where the state is `s` (R98, R100). -/
def tokenEvents (s : State) : Token → List Instr
  | .reset => [.reset]
  | .d c p => [.dstep c p]
  | .call => [.sample]
  | .callBegin => [.sbegin]
  | .callAccess => [.sstep]
  | .pins c ps => pinsEvents c ps
  | .hold c k => holdEvents c k s
  | .both p => bothEvents p

/-- What an event does to the previous readings, the rest of the state left as it is (R174, R260): all that the expansion
of a later token can depend on. -/
def latchReading (s : State) : Instr → State
  | .dstep c p => latchPins c p s
  | .reset => latchPins .R Config.prevInit (latchPins .L Config.prevInit s)
  | .sample | .sbegin | .sstep => s
  | .nochange0000 _ | .nochange0001 _ | .nochange0010 _ | .nochange0011 _ => s
  | .increment0100 _ | .nochange0101 _ | .nochange0110 _ | .decrement0111 _ => s
  | .decrement1000 _ | .nochange1001 _ | .nochange1010 _ | .increment1011 _ => s
  | .nochange1100 _ | .nochange1101 _ | .nochange1110 _ | .nochange1111 _ => s

/-- The events of a written trace that starts in state `s`, each shorthand expanded with the readings that the events
before it leave. -/
def traceEvents : State → List Token → List Instr
  | _, [] => []
  | s, k :: rest => tokenEvents s k ++ traceEvents ((tokenEvents s k).foldl latchReading s) rest

/-- The byte string of a program that starts in state `s` (R100). -/
def programBytes (s : State) (ks : List Token) : List Byte := (traceEvents s ks).map byteOf

/-- The key an event presents to the table on channel `c`, if it does (R171). -/
def keyPresented (c : Channel) (s : State) : Instr → List Key
  | .dstep d p => if d = c then [presentedKey d p s] else []
  | .sample | .sbegin | .sstep | .reset => []
  | .nochange0000 _ | .nochange0001 _ | .nochange0010 _ | .nochange0011 _ => []
  | .increment0100 _ | .nochange0101 _ | .nochange0110 _ | .decrement0111 _ => []
  | .decrement1000 _ | .nochange1001 _ | .nochange1010 _ | .increment1011 _ => []
  | .nochange1100 _ | .nochange1101 _ | .nochange1110 _ | .nochange1111 _ => []

/-- The decoder part of a program's encoding (R100): the keys that the steps of channel `c` among the events present. -/
def programKeys (c : Channel) : State → List Instr → List Key
  | _, [] => []
  | s, i :: rest => keyPresented c s i ++ programKeys c (latchReading s i) rest

end Sys2Proof.Machine
end

