-- ==== Sys2Proof/Safety.lean ====
section
/-!
DEFINITION. The terms claims are stated in: the invariant of the reachable states (10_state.md R36), what a safe step
is, runs of instructions, fair runs, and how many queue accesses a call in flight can still make (43_velocity_sampler.md R200).
-/

namespace Sys2Proof.Machine

/-- The state with a call in flight is at a place the call can be at: `0 ≤ n < QDEPTH` (R30). -/
def Phase.inRange (qdepth : Nat) : Phase → Prop
  | .idle => True
  | .acc _ n => n < qdepth

/-- What holds in every reachable state. -/
structure MachineInv (s : State) : Prop where
  /-- `QDEPTH ≥ 1` (R7). -/
  qdepth_pos : 1 ≤ s.qdepth
  /-- R36 (a). -/
  queues : Memory.wf s
  /-- R30. -/
  phase : s.smpPhase.inRange s.qdepth
  /-- R36 (b): until a nonzero value has been consulted, every value consulted was zero. -/
  quiet : ∀ c, (s.ch c).firstNonzeroSeen = false → (s.ch c).previousSample = 0#32
  /-- R23: `outR` is the negation of channel R's raw delta. -/
  heldRight : s.outR = negated s.right.lastDelta
  /-- R39: `outL` is channel L's raw delta, but while a call has finished L and not yet R. -/
  heldLeft : (∀ n, s.smpPhase ≠ .acc .R n) → s.outL = s.left.lastDelta

/-- A step is safe where it does not meet the one model outcome a claim takes as absent (R235, R241). -/
def SafeStep (s : State) : Prop := ∀ r, step s ≠ .fault r

/-- A call in flight has consulted a word and stands inside its drain: the only time `SMP.cur` means anything (R30). -/
def draining (s : State) : Bool :=
  match s.smpPhase with
  | .idle => false
  | .acc _ n => n != 0

/-- Executes instructions one after the other, stopping at the first fault or refusal. -/
def execAll : List Instr → State → Host.Outcome State Fault Refusal
  | [], s => .next s
  | i :: rest, s =>
    match exec i s with
    | .next t => execAll rest t
    | .fault r => .fault r
    | .refused r => .refused r

/-- Executes the tokens of a written trace one after the other, each expanded in the state in which it stands (R98,
R100). -/
def execTokens : List Token → State → Host.Outcome State Fault Refusal
  | [], s => .next s
  | k :: rest, s =>
    match execAll (tokenEvents s k) s with
    | .next t => execTokens rest t
    | .fault r => .fault r
    | .refused r => .refused r

/-- An infinite run (R68): the event `e n` takes the state `σ n` to the state `σ (n + 1)`. -/
structure InfiniteRun (e : Nat → Instr) (σ : Nat → State) : Prop where
  events : ∀ n, (e n).isEvent = true
  runs : ∀ n, exec (e n) (σ n) = .next (σ (n + 1))

/-- Weak fairness of an infinite run (R175, R200, D24): each decoder steps infinitely often, and a call in flight takes its
next access eventually, unless a reset abandons it. -/
structure WeaklyFair (e : Nat → Instr) (σ : Nat → State) : Prop where
  decoders : ∀ c n, ∃ m, n ≤ m ∧ ∃ p, e m = .dstep c p
  calls : ∀ n, (σ n).smpPhase ≠ .idle → ∃ m, n ≤ m ∧ (e m = .sstep ∨ e m = .reset)

/-- The most queue accesses a call in flight can still make: `QDEPTH` a channel (R200). -/
def accessesLeft (s : State) : Nat :=
  match s.smpPhase with
  | .idle => 0
  | .acc .L n => (s.qdepth - n) + s.qdepth
  | .acc .R n => s.qdepth - n

/-- Everything a decoder step of channel `c` leaves alone: the other channel, all the sampler owns, the output, and the
model's own fields (R34, R170). -/
structure DecoderFrame (c : Channel) (s t : State) : Prop where
  otherChannel : t.ch c.other = s.ch c.other
  previousSample : (t.ch c).previousSample = (s.ch c).previousSample
  firstNonzeroSeen : (t.ch c).firstNonzeroSeen = (s.ch c).firstNonzeroSeen
  lastDelta : (t.ch c).lastDelta = (s.ch c).lastDelta
  smpPhase : t.smpPhase = s.smpPhase
  smpCur : t.smpCur = s.smpCur
  outL : t.outL = s.outL
  outR : t.outR = s.outR
  qdepth : t.qdepth = s.qdepth
  trace : t.trace = s.trace
  returned : t.returned = s.returned
  drawn : t.drawn = s.drawn

/-- Everything a queue access or a whole call leaves alone: both counters and both previous readings, the parameter,
the events lined up, and the draws (R34). -/
structure SamplerFrame (s t : State) : Prop where
  runningCount : ∀ c, (t.ch c).runningCount = (s.ch c).runningCount
  prevPins : ∀ c, (t.ch c).prevPins = (s.ch c).prevPins
  qdepth : t.qdepth = s.qdepth
  trace : t.trace = s.trace
  drawn : t.drawn = s.drawn

/-- The output and the observation are as before: no pair was returned. -/
structure NoReturn (s t : State) : Prop where
  outL : t.outL = s.outL
  outR : t.outR = s.outR
  returned : t.returned = s.returned

/-- The call returned the pair `(a, b)` (R203). -/
structure Returned (a b : Word) (s t : State) : Prop where
  idle : t.smpPhase = .idle
  outL : t.outL = a
  outR : t.outR = b
  returned : t.returned = s.returned ++ [(a, b)]

/-- What a sample call does to the sampler's registers of one channel, `first` being the result of its first access to
the queue (the table of 43_velocity_sampler.md R199). -/
def sampledRegisters (x : ChannelState) (first : Option Word) (y : ChannelState) : Prop :=
  match first with
  | none => y.previousSample = x.previousSample ∧ y.firstNonzeroSeen = x.firstNonzeroSeen ∧ y.lastDelta = 0#32
  | some w =>
    y.previousSample = w
      ∧ y.firstNonzeroSeen = (x.firstNonzeroSeen || decide (w ≠ 0#32))
      ∧ y.lastDelta = if x.firstNonzeroSeen = false ∧ w ≠ 0#32 then 0#32 else x.previousSample - w

/-- What a row of the opcode table that is a key `{prev, cur}` does, in every state in which its decoder can present
that key (R91: `key[3:2]` is `prevPins`; R170): the word is the key's, the step completes, the counter becomes `next` of the
counter, the updated counter is pushed unless the queue is full, `cur` becomes the previous reading, and everything else
is kept. -/
def KeyRow (row : Channel → Instr) (prev cur : Pins) (next : Word → Word) : Prop :=
  ∀ c,
    encode (row c) = .key4 c (prev ++ cur) ∧ decode (.key4 c (prev ++ cur)) = .ok (row c)
      ∧ ∀ s : State, (s.ch c).prevPins = prev →
        ∃ t, exec (row c) s = .next t
          ∧ (t.ch c).runningCount = next (s.ch c).runningCount
          ∧ (t.ch c).queue
              = (if (s.ch c).queue.length < s.qdepth then (s.ch c).queue ++ [next (s.ch c).runningCount]
                 else (s.ch c).queue)
          ∧ (t.ch c).prevPins = cur
          ∧ DecoderFrame c s t

/-- The readings of channel `c` in a list of events, in order. -/
def readings (c : Channel) : List Instr → List Pins
  | [] => []
  | .dstep d p :: rest => if d = c then p :: readings c rest else readings c rest
  | _ :: rest => readings c rest

/-- The sum of the table's adjustments over readings that follow the reading `r0` (R177). -/
def adjSum (r0 : Pins) : List Pins → Int
  | [] => 0
  | p :: rest => adj (transitionTable (r0 ++ p)) + adjSum p rest

/-- Channel `c`'s component of a returned pair (R203). -/
def component : Channel → Word × Word → Word
  | .L, pair => pair.1
  | .R, pair => pair.2

/-- Channel `c`'s raw delta in a returned pair: the second component is channel R's negated (R203). -/
def rawComponent : Channel → Word × Word → Word
  | .L, pair => pair.1
  | .R, pair => -pair.2

/-- The sum of channel `c`'s raw deltas in returned pairs, modulo 2^32. -/
def rawSum (c : Channel) : List (Word × Word) → Word
  | [] => 0#32
  | pair :: rest => rawComponent c pair + rawSum c rest

/-- The instruction is a decoder step of channel `c`: the event, or a key at that decoder's table port. -/
def isStepOf (c : Channel) (i : Instr) : Prop := (∃ p, i = .dstep c p) ∨ ∃ k, decode (.key4 c k) = .ok i

/-- The two outcomes are alike but for `SMP.cur`, and that only where `SMP.cur` means nothing (R30). -/
def AlikeButCur : Host.Outcome State Fault Refusal → Host.Outcome State Fault Refusal → Prop
  | .next t, .next u => u = t ∨ (draining t = false ∧ u = { t with smpCur := u.smpCur })
  | .fault a, .fault b => a = b
  | .refused a, .refused b => a = b
  | .next _, .fault _ | .next _, .refused _ | .fault _, .next _ => False
  | .fault _, .refused _ | .refused _, .next _ | .refused _, .fault _ => False

/-- Applies a function to the next state, if there is one. -/
def onNext (f : State → State) : Host.Outcome State Fault Refusal → Host.Outcome State Fault Refusal
  | .next t => .next (f t)
  | .fault r => .fault r
  | .refused r => .refused r

/-- The state with another counter and another previous reading in channel `c`. -/
def withDecoder (c : Channel) (n : Word) (p : Pins) (s : State) : State :=
  s.setCh c { s.ch c with runningCount := n, prevPins := p }

end Sys2Proof.Machine
end

