-- ==== Sys2Proof/Certificates/Slice0/Obligations.lean ====
section
/-!
DEFINITION. The statements for the provers. Each docstring names the rule of spec/ it formalises; where a clause rests on
a decision of the spec or of the model, it says so.
-/

open Sys2Proof Sys2Proof.Machine

/-! ### Encoding -/

/-- Words written out from the spec's encodings decode to what they stand for (30_encoding.md R91, R98; the event bytes
are the spec's own notation, D21; the port of a key is the model's, log 6). -/
def Obligations.SpecWordsDecode : Prop :=
  decode (.evt8 0b00000010#8) = .ok (.dstep .L 0b10#2)
    ∧ decode (.evt8 0b00000111#8) = .ok (.dstep .R 0b11#2)
    ∧ decode (.evt8 0b01000000#8) = .ok .sample
    ∧ decode (.evt8 0b01000001#8) = .ok .sbegin
    ∧ decode (.evt8 0b01000010#8) = .ok .sstep
    ∧ decode (.evt8 0b10000000#8) = .ok .reset
    ∧ decode (.evt8 0b00001000#8) = .error (.malformedEvent 0b00001000#8)
    ∧ decode (.key4 .L 0b0100#4) = .ok (.increment0100 .L)
    ∧ decode (.key4 .R 0b0111#4) = .ok (.decrement0111 .R)
    ∧ decode (.key4 .L 0b1100#4) = .ok (.nochange1100 .L)

/-- Decoding and encoding agree both ways, for every instruction with every operand, and exactly the well-formed words
decode: all keys, and of the bytes the twelve events (30_encoding.md R97, R98, D21). -/
def Obligations.DecodeEncodeAgree : Prop :=
  (∀ i, decode (encode i) = .ok i)
    ∧ (∀ w i, decode w = .ok i → encode i = w)
    ∧ ∀ w, w.wf = true ↔ ∃ i, decode w = .ok i

/-- The stored form of the table: the 32-bit ROM constant holds `TT`, code `10` is no action, and an action's code read
as a signed number is its adjustment (30_encoding.md R93, D6). -/
def Obligations.RomHoldsTheTable : Prop :=
  (∀ k, romEntry romWord k = some (transitionTable k))
    ∧ decodeAct2 0b10#2 = none
    ∧ (∀ a, decodeAct2 (encodeAct2 a) = some a)
    ∧ sext2 (encodeAct2 .noChange) = 0
    ∧ sext2 (encodeAct2 .increment) = 1
    ∧ sext2 (encodeAct2 .decrement) = -1

/-- The arithmetic primitives are what the table of 00_scope.md R11 says, each characterised rather than repeated. -/
def Obligations.ArithmeticPrimitives : Prop :=
  (∀ n : Int, ((wrap32 n).toNat : Int) = n % 2 ^ 32)
    ∧ (∀ w : Word, s32 w = if w.getLsbD 31 = false then (w.toNat : Int) else (w.toNat : Int) - 2 ^ 32)
    ∧ (∀ w : Word, -2 ^ 31 ≤ s32 w ∧ s32 w ≤ 2 ^ 31 - 1 ∧ u32 (s32 w) = w)
    ∧ (∀ v : Int, -2 ^ 31 ≤ v → v ≤ 2 ^ 31 - 1 → s32 (u32 v) = v)
    ∧ (∀ (w : Word) (k : Int), ((add32 w k).toNat : Int) = ((w.toNat : Int) + k) % 2 ^ 32)
    ∧ (∀ a b : Int, sub32 a b % 2 ^ 32 = (a - b) % 2 ^ 32 ∧ -2 ^ 31 ≤ sub32 a b ∧ sub32 a b ≤ 2 ^ 31 - 1)
    ∧ (∀ a : Int, neg32 a % 2 ^ 32 = -a % 2 ^ 32 ∧ -2 ^ 31 ≤ neg32 a ∧ neg32 a ≤ 2 ^ 31 - 1)
    ∧ neg32 (-2 ^ 31) = -2 ^ 31
    ∧ (sext2 0b00#2 = 0 ∧ sext2 0b01#2 = 1 ∧ sext2 0b11#2 = -1 ∧ sext2 0b10#2 = -2)
    ∧ ∀ (k n : Nat) (v : BitVec k), k ≤ n → (zext n v).toNat = v.toNat

/-! ### The sixteen keys and the decoder step -/

/-- The twelve `NoChange` keys keep the counter (40_transition_table.md R121 to R124, R126, R127, R130, R131, R133 to
R136), push it and latch the reading; nothing else changes. -/
def Obligations.NoChangeKeysKeepTheCounter : Prop :=
  KeyRow .nochange0000 0b00#2 0b00#2 id ∧ KeyRow .nochange0001 0b00#2 0b01#2 id
    ∧ KeyRow .nochange0010 0b00#2 0b10#2 id ∧ KeyRow .nochange0011 0b00#2 0b11#2 id
    ∧ KeyRow .nochange0101 0b01#2 0b01#2 id ∧ KeyRow .nochange0110 0b01#2 0b10#2 id
    ∧ KeyRow .nochange1001 0b10#2 0b01#2 id ∧ KeyRow .nochange1010 0b10#2 0b10#2 id
    ∧ KeyRow .nochange1100 0b11#2 0b00#2 id ∧ KeyRow .nochange1101 0b11#2 0b01#2 id
    ∧ KeyRow .nochange1110 0b11#2 0b10#2 id ∧ KeyRow .nochange1111 0b11#2 0b11#2 id

/-- The two `Increment` keys add 1 modulo 2^32 with no exception (40_transition_table.md R125, R132), the corner cases
`0x7FFFFFFF` to `0x80000000` and `0xFFFFFFFF` to 0 included. -/
def Obligations.IncrementKeysAddOne : Prop :=
  KeyRow .increment0100 0b01#2 0b00#2 (· + 1#32) ∧ KeyRow .increment1011 0b10#2 0b11#2 (· + 1#32)
    ∧ (0x7FFFFFFF#32 + 1#32 = 0x80000000#32) ∧ (0xFFFFFFFF#32 + 1#32 = 0x00000000#32)

/-- The two `Decrement` keys subtract 1 modulo 2^32 with no exception (40_transition_table.md R128, R129), the corner
cases 0 to `0xFFFFFFFF` and `0x80000000` to `0x7FFFFFFF` included. -/
def Obligations.DecrementKeysSubtractOne : Prop :=
  KeyRow .decrement0111 0b01#2 0b11#2 (· - 1#32) ∧ KeyRow .decrement1000 0b10#2 0b00#2 (· - 1#32)
    ∧ (0x00000000#32 - 1#32 = 0xFFFFFFFF#32) ∧ (0x80000000#32 - 1#32 = 0x7FFFFFFF#32)

/-- A key's effect depends on the key alone, also in states in which its decoder could not present it: the model's
choice (DESIGN CHOICE, log 6). -/
def Obligations.KeyRowsIgnoreThePreviousReading : Prop :=
  ∀ (c : Channel) (k : Key) (i : Instr) (s : State) (v : Pins), decode (.key4 c k) = .ok i →
    ∃ t, exec i s = .next t ∧ exec i (s.setCh c { s.ch c with prevPins := v }) = .next t
      ∧ (t.ch c).prevPins = k.extractLsb' 0 2

/-- `DSTEP(c, p)` in every state: the key is `{prevPins, p}`, the table's adjustment is added modulo 2^32, the updated
counter is pushed, the reading is latched, and nothing else is touched (42_edge_decoder.md R170, R171, R172). -/
def Obligations.DstepResult : Prop :=
  ∀ (c : Channel) (p : Pins) (s : State),
    ∃ t, exec (.dstep c p) s = .next t
      ∧ ((t.ch c).runningCount.toNat : Int)
          = ((s.ch c).runningCount.toNat + adj (transitionTable ((s.ch c).prevPins ++ p))) % 2 ^ 32
      ∧ (t.ch c).queue
          = (if (s.ch c).queue.length < s.qdepth then (s.ch c).queue ++ [(t.ch c).runningCount] else (s.ch c).queue)
      ∧ (t.ch c).prevPins = p
      ∧ DecoderFrame c s t

/-- The three actions (40_transition_table.md R138 to R140): `NoChange` leaves the counter, `Increment` and `Decrement`
move the signed counter by one and wrap at its ends, no saturation; whatever the action, the step pushes and latches,
and leaves no other trace. -/
def Obligations.DstepMovesTheSignedCounterByItsAction : Prop :=
  ∀ (c : Channel) (p : Pins) (s : State),
    ∃ t, exec (.dstep c p) s = .next t
      ∧ (match transitionTable ((s.ch c).prevPins ++ p) with
        | .noChange => (t.ch c).runningCount = (s.ch c).runningCount
        | .increment =>
          s32 (t.ch c).runningCount
              = (if s32 (s.ch c).runningCount = 2147483647 then -2147483648 else s32 (s.ch c).runningCount + 1)
            ∧ (t.ch c).runningCount = ~~~(~~~(s.ch c).runningCount - 1#32)
        | .decrement =>
          s32 (t.ch c).runningCount
            = if s32 (s.ch c).runningCount = -2147483648 then 2147483647 else s32 (s.ch c).runningCount - 1)
      ∧ (t.ch c).queue
          = (if (s.ch c).queue.length < s.qdepth then (s.ch c).queue ++ [(t.ch c).runningCount] else (s.ch c).queue)
      ∧ (t.ch c).prevPins = p
      ∧ DecoderFrame c s t

/-- A decoder step is the row of the opcode table that its key selects (42_edge_decoder.md R170 to R172). -/
def Obligations.DstepIsTheRowOfItsKey : Prop :=
  ∀ (c : Channel) (p : Pins) (s : State),
    ∃ i, decode (.key4 c ((s.ch c).prevPins ++ p)) = .ok i ∧ exec (.dstep c p) s = exec i s

/-- The counter depends on the readings alone, however the sampler and the other decoder are scheduled
(42_edge_decoder.md R177). -/
def Obligations.CounterFollowsItsReadings : Prop :=
  ∀ (es : List Instr) (s t : State) (c : Channel), (∀ i ∈ es, i.isEvent = true ∧ i ≠ .reset) → execAll es s = .next t →
    (t.ch c).runningCount = wrap32 ((s.ch c).runningCount.toNat + adjSum (s.ch c).prevPins (readings c es))
      ∧ (t.ch c).prevPins = (readings c es).getLastD (s.ch c).prevPins

/-- Net counts of pin sequences (40_transition_table.md R141): two counts a cycle, dither adds up, a reversal is
cancelled one edge later. -/
def Obligations.PinSequencesCount : Prop :=
  ∀ (c : Channel) (s : State),
    ((s.ch c).prevPins = 0b00#2 →
      (∃ t, execAll [.dstep c 0b10#2, .dstep c 0b11#2, .dstep c 0b01#2, .dstep c 0b00#2] s = .next t
        ∧ (t.ch c).runningCount = (s.ch c).runningCount + 2#32)
      ∧ ∃ t, execAll [.dstep c 0b01#2, .dstep c 0b11#2, .dstep c 0b10#2, .dstep c 0b00#2] s = .next t
        ∧ (t.ch c).runningCount = (s.ch c).runningCount - 2#32)
    ∧ ((s.ch c).prevPins = 0b01#2 →
      (∃ t, execAll [.dstep c 0b00#2, .dstep c 0b01#2, .dstep c 0b00#2] s = .next t
        ∧ (t.ch c).runningCount = (s.ch c).runningCount + 2#32)
      ∧ ∃ t, execAll [.dstep c 0b00#2, .dstep c 0b10#2, .dstep c 0b00#2] s = .next t
        ∧ (t.ch c).runningCount = (s.ch c).runningCount)

/-- Rows `00` and `11` of the table never count, whatever the reading, so the first step after reset never does
(40_transition_table.md R137; that `prevPins` starts at `00` is the spec's decision D4). -/
def Obligations.FirstStepNeverCounts : Prop :=
  (∀ (c : Channel) (p : Pins) (s : State), (s.ch c).prevPins = 0b00#2 ∨ (s.ch c).prevPins = 0b11#2 →
    ∃ t, exec (.dstep c p) s = .next t ∧ (t.ch c).runningCount = (s.ch c).runningCount)
  ∧ ∀ (c : Channel) (p : Pins) (q : Nat), 1 ≤ q →
    ∃ t, exec (.dstep c p) (State.resetOf q) = .next t ∧ (t.ch c).queue = [0x00000000#32]

/-- Steps of the two decoders commute, and a decoder's step commutes with a queue access on the other channel
(20_memory.md R69 (g)). -/
def Obligations.ChannelsCommute : Prop :=
  (∀ (p q : Pins) (s : State), execAll [.dstep .L p, .dstep .R q] s = execAll [.dstep .R q, .dstep .L p] s)
    ∧ ∀ (c : Channel) (p : Pins) (n : Nat) (s : State), s.smpPhase = .acc c.other n →
      execAll [.dstep c p, .sstep] s = execAll [.sstep, .dstep c p] s

/-! ### The queues -/

/-- `QPUSH` (41_output_queue.md R151): appends at the tail while there is room; on a full queue the queued words stay,
the new word is lost and the counter keeps its count; nothing else changes, and the step never waits. -/
def Obligations.FullQueueDropsTheNewest : Prop :=
  (∀ (c : Channel) (w : Word) (s : State), (s.ch c).queue.length < s.qdepth →
    qpush c w s = s.setCh c { s.ch c with queue := (s.ch c).queue ++ [w] })
  ∧ (∀ (c : Channel) (w : Word) (s : State), ¬ (s.ch c).queue.length < s.qdepth → qpush c w s = s)
  ∧ ∀ (c : Channel) (p : Pins) (s : State),
    ∃ t, exec (.dstep c p) s = .next t
      ∧ (t.ch c).runningCount = add32 (s.ch c).runningCount (adj (transitionTable ((s.ch c).prevPins ++ p)))
      ∧ (t.ch c).queue = ((qpush c (t.ch c).runningCount s).ch c).queue

/-- `QTRYPOP` (41_output_queue.md R152): the oldest word, removed; on an empty queue none and no change. -/
def Obligations.TryPopTakesTheOldest : Prop :=
  ∀ (c : Channel) (s : State),
    ((s.ch c).queue = [] → qtrypop c s = (none, s))
      ∧ ∀ w rest, (s.ch c).queue = w :: rest →
        qtrypop c s = (some w, s.setCh c { s.ch c with queue := rest })

/-- What any event can do to a queue (20_memory.md R69): remove words at the head, or append at the tail the counter as
it stands after a step of that channel's decoder, and that only while there is room. -/
def Obligations.QueuesAreFifo : Prop :=
  ∀ (i : Instr) (s t : State) (c : Channel), exec i s = .next t →
    (t.ch c).queue <:+ (s.ch c).queue
      ∨ (isStepOf c i ∧ (s.ch c).queue.length < s.qdepth ∧ (t.ch c).queue = (s.ch c).queue ++ [(t.ch c).runningCount])

/-- A push and a pop on one queue come in either order and the orders differ: on a full queue in what is left, on an
empty one in what the pop sees (20_memory.md R70, D18). With `QDEPTH = 1` the popped word ends the channel, and that
`SMP.cur` still holds it then is the model's reading (DEDUCED, log 8). -/
def Obligations.PushAndPopOrdersDiffer : Prop :=
  ∀ (c : Channel) (p : Pins) (n : Nat) (s : State), 1 ≤ s.qdepth → s.smpPhase = .acc c n →
    ((s.ch c).queue.length = s.qdepth →
      (∃ t, execAll [.dstep c p, .sstep] s = .next t ∧ (t.ch c).queue = (s.ch c).queue.tail)
      ∧ ∃ t, execAll [.sstep, .dstep c p] s = .next t
        ∧ (t.ch c).queue = (s.ch c).queue.tail ++ [(t.ch c).runningCount])
    ∧ ((s.ch c).queue = [] → n = 0 →
      (∃ t, execAll [.dstep c p, .sstep] s = .next t ∧ (t.ch c).queue = [] ∧ t.smpCur = (t.ch c).runningCount)
      ∧ ∃ t, execAll [.sstep, .dstep c p] s = .next t
        ∧ (t.ch c).queue = [(t.ch c).runningCount] ∧ (t.ch c).lastDelta = 0#32)

/-! ### The sampler -/

/-- `SBEGIN` with no call in flight: the phase becomes `ACC(L, 0)`, and nothing else changes (43_velocity_sampler.md
R191; L first is the spec's decision D16; that `SMP.cur` keeps its value there is the model's reading, DEDUCED, log 8). -/
def Obligations.SbeginStartsAtLeft : Prop :=
  ∀ s : State, s.smpPhase = .idle → exec .sbegin s = .next { s with smpPhase := .acc .L 0 }

/-- An invocation while a call is in flight is the model outcome `SamplerReentry`, never a behaviour
(60_exceptions.md R241, D17). -/
def Obligations.OverlappingCallFaults : Prop :=
  ∀ s : State, s.smpPhase ≠ .idle →
    exec .sample s = .fault .samplerReentry ∧ exec .sbegin s = .fault .samplerReentry

/-- An `s` with no call in flight is refused (30_encoding.md R99, D21). -/
def Obligations.AccessOutsideACallIsRefused : Prop :=
  ∀ s : State, s.smpPhase = .idle → exec .sstep s = .refused .sstepOutsideCall

/-- No instruction faults in any state but for the environment's overlapping call, and none is refused but an `s`
outside a call; every other instruction completes (60_exceptions.md R230, R235). -/
def Obligations.NothingElseStops : Prop :=
  ∀ (i : Instr) (s : State),
    (∃ t, exec i s = .next t)
      ∨ ((i = .sample ∨ i = .sbegin) ∧ s.smpPhase ≠ .idle ∧ exec i s = .fault .samplerReentry)
      ∨ (i = .sstep ∧ s.smpPhase = .idle ∧ exec i s = .refused .sstepOutsideCall)

/-- The first access of a call finds the queue empty: delta 0, `previousSample` and `firstNonzeroSeen` kept, the
previous delta not reported again (43_velocity_sampler.md R193). That `SMP.cur`, which means nothing there, keeps its
value is the model's reading (DEDUCED, log 8). -/
def Obligations.EmptyQueueGivesZeroDelta : Prop :=
  ∀ (c : Channel) (s : State), s.smpPhase = .acc c 0 → (s.ch c).queue = [] →
    ∃ t, exec .sstep s = .next t
      ∧ (t.ch c).lastDelta = 0#32
      ∧ (t.ch c).previousSample = (s.ch c).previousSample
      ∧ (t.ch c).firstNonzeroSeen = (s.ch c).firstNonzeroSeen
      ∧ (t.ch c).queue = []
      ∧ t.ch c.other = s.ch c.other
      ∧ t.smpCur = s.smpCur
      ∧ SamplerFrame s t
      ∧ (c = .L → t.smpPhase = .acc .R 0 ∧ NoReturn s t)
      ∧ (c = .R → Returned s.left.lastDelta 0#32 s t)

/-- The first access of a call finds a word, and the drain goes on (43_velocity_sampler.md R192, R194; that it is the
oldest word is the spec's decision D9): it becomes `SMP.cur`, no register of the channel changes yet. -/
def Obligations.FirstAccessConsultsTheOldest : Prop :=
  ∀ (c : Channel) (s : State) (w : Word) (rest : List Word), s.smpPhase = .acc c 0 → (s.ch c).queue = w :: rest →
    s.qdepth ≠ 1 →
    ∃ t, exec .sstep s = .next t
      ∧ t.ch c = { s.ch c with queue := rest }
      ∧ t.ch c.other = s.ch c.other
      ∧ t.smpPhase = .acc c 1
      ∧ t.smpCur = w
      ∧ SamplerFrame s t
      ∧ NoReturn s t

/-- A later access that finds a word and is not the last one throws it away (43_velocity_sampler.md R192, R195; the
bound is the spec's decision D10). -/
def Obligations.DrainDiscardsWords : Prop :=
  ∀ (c : Channel) (n : Nat) (s : State) (w : Word) (rest : List Word), s.smpPhase = .acc c n → 1 ≤ n →
    (s.ch c).queue = w :: rest → n + 1 ≠ s.qdepth →
    ∃ t, exec .sstep s = .next t
      ∧ t.ch c = { s.ch c with queue := rest }
      ∧ t.ch c.other = s.ch c.other
      ∧ t.smpPhase = .acc c (n + 1)
      ∧ t.smpCur = s.smpCur
      ∧ SamplerFrame s t
      ∧ NoReturn s t

/-- The access that ends a channel's drain, by finding the queue empty or by being the `QDEPTH`-th
(43_velocity_sampler.md R192, R196 to R199, R203; D10, D12, D13): the channel's registers become what the table of R199
says of the consulted value, and the call goes on to channel R or returns the pair. That `SMP.cur`, which means nothing
once the drain has ended, still holds the consulted value is the model's reading (DEDUCED, log 8). -/
def Obligations.LastAccessComputesTheDelta : Prop :=
  ∀ (c : Channel) (n : Nat) (s : State) (v : Word), s.smpPhase = .acc c n →
    ((1 ≤ n ∧ (s.ch c).queue = [] ∧ v = s.smpCur)
      ∨ (1 ≤ n ∧ (s.ch c).queue ≠ [] ∧ n + 1 = s.qdepth ∧ v = s.smpCur)
      ∨ (n = 0 ∧ (s.ch c).queue.head? = some v ∧ s.qdepth = 1)) →
    ∃ t, exec .sstep s = .next t
      ∧ sampledRegisters (s.ch c) (some v) (t.ch c)
      ∧ (t.ch c).queue = (s.ch c).queue.tail
      ∧ t.ch c.other = s.ch c.other
      ∧ t.smpCur = v
      ∧ SamplerFrame s t
      ∧ (c = .L → t.smpPhase = .acc .R 0 ∧ NoReturn s t)
      ∧ (c = .R → Returned s.left.lastDelta (-t.right.lastDelta) s t)

/-- A whole call (43_velocity_sampler.md R190, R199, R203; D9, D10, D12, D13): each channel's registers become what
the table of R199 says of the head of its queue, `QDEPTH` words leave each queue, and the pair (left delta, negated
right delta) is returned. What `SMP.cur` holds afterwards is the model's reading (DEDUCED, log 8). -/
def Obligations.SampleReturnsTheDeltas : Prop :=
  ∀ s : State, s.smpPhase = .idle → 1 ≤ s.qdepth →
    ∃ t, exec .sample s = .next t
      ∧ (∀ c, sampledRegisters (s.ch c) (s.ch c).queue.head? (t.ch c))
      ∧ (∀ c, (t.ch c).queue = (s.ch c).queue.drop s.qdepth)
      ∧ t.smpCur = (s.right.queue.head?.or s.left.queue.head?).getD s.smpCur
      ∧ SamplerFrame s t
      ∧ Returned t.left.lastDelta (-t.right.lastDelta) s t

/-- `S` is `S{` followed by as many `s` as the call needs, with nothing between, and it needs at least 2 and at most
`2·QDEPTH` (43_velocity_sampler.md R192, R200; 30_encoding.md R99). That both leave the same `SMP.cur`, which means
nothing after a call, is the model's reading (DEDUCED, log 8). -/
def Obligations.SampleIsItsAccesses : Prop :=
  ∀ s : State, s.smpPhase = .idle → 1 ≤ s.qdepth →
    ∃ k, 2 ≤ k ∧ k ≤ 2 * s.qdepth ∧ execAll (.sbegin :: List.replicate k .sstep) s = exec .sample s

/-- A call in flight always ends (43_velocity_sampler.md R200): each of its accesses completes and leaves fewer to
make, at most `2·QDEPTH` in all, no decoder step can add one, and none is left exactly when no call is in flight. -/
def Obligations.EveryAccessBringsTheEndNearer : Prop :=
  ∀ s : State, s.smpPhase.inRange s.qdepth → 1 ≤ s.qdepth →
    (s.smpPhase ≠ .idle → ∃ t, exec .sstep s = .next t ∧ accessesLeft t < accessesLeft s
      ∧ t.smpPhase.inRange t.qdepth)
    ∧ accessesLeft s ≤ 2 * s.qdepth
    ∧ (accessesLeft s = 0 ↔ s.smpPhase = .idle)
    ∧ ∀ c p, ∃ t, exec (.dstep c p) s = .next t ∧ accessesLeft t = accessesLeft s

/-- A call right after a call returns `(0, 0)` and changes no `previousSample` and no `firstNonzeroSeen`
(43_velocity_sampler.md R204 (a), the document's §8). -/
def Obligations.SecondCallReturnsZero : Prop :=
  ∀ s : State, s.smpPhase = .idle → 1 ≤ s.qdepth → Memory.wf s →
    ∃ t u, exec .sample s = .next t ∧ exec .sample t = .next u
      ∧ Returned 0#32 0#32 t u
      ∧ ∀ c, (u.ch c).previousSample = (t.ch c).previousSample
        ∧ (u.ch c).firstNonzeroSeen = (t.ch c).firstNonzeroSeen

/-- A channel whose decoder takes no step and whose queue is empty returns delta 0 for ever and never changes its
`previousSample`, whatever the other channel and the schedule do (43_velocity_sampler.md R204 (b), the document's §8). -/
def Obligations.SilentChannelReturnsZero : Prop :=
  ∀ (es : List Instr) (s t : State) (c : Channel), s.smpPhase = .idle → (s.ch c).queue = [] →
    (∀ i ∈ es, i ≠ .reset ∧ ¬ isStepOf c i) → execAll es s = .next t →
    (t.ch c).queue = [] ∧ (t.ch c).previousSample = (s.ch c).previousSample
      ∧ (t.ch c).firstNonzeroSeen = (s.ch c).firstNonzeroSeen
      ∧ ∃ new, t.returned = s.returned ++ new
        ∧ ∀ pair ∈ new, component c pair = 0#32

/-- On channels in the same state a call returns exact negations (43_velocity_sampler.md R203, the document's §8; the
negation wraps by D13). -/
def Obligations.RightIsTheNegationOfLeft : Prop :=
  ∀ s : State, s.smpPhase = .idle → s.left = s.right →
    ∃ t, exec .sample s = .next t ∧ t.left = t.right ∧ t.outR = u32 (neg32 (s32 t.outL))

/-- The glitch-filter register (10_state.md R24): false at reset; nothing but `RESET` clears it; it is set only by the
sampler, in the event that consults a nonzero value while it is false, and that event's delta is 0. -/
def Obligations.GlitchFilterFiresOnce : Prop :=
  (∀ q c, ((State.resetOf q).ch c).firstNonzeroSeen = false)
    ∧ ∀ (i : Instr) (s t : State) (c : Channel), exec i s = .next t →
      ((s.ch c).firstNonzeroSeen = true → i ≠ .reset → (t.ch c).firstNonzeroSeen = true)
      ∧ ((s.ch c).firstNonzeroSeen = false → (t.ch c).firstNonzeroSeen = true →
          (i = .sample ∨ i = .sstep) ∧ (t.ch c).previousSample ≠ 0#32 ∧ (t.ch c).lastDelta = 0#32)
      ∧ ((s.ch c).firstNonzeroSeen = false → (i = .sample ∨ i = .sstep) →
          (t.ch c).previousSample ≠ (s.ch c).previousSample → (t.ch c).previousSample ≠ 0#32 →
          (t.ch c).firstNonzeroSeen = true)

/-- Ownership (10_state.md R34): a channel's counter and previous reading are written only by that channel's decoder,
the sampler's registers only by the sampler; reset, which the environment applies (00_scope.md R8), writes all. -/
def Obligations.EachElementHasOneWriter : Prop :=
  ∀ (i : Instr) (s t : State) (c : Channel), exec i s = .next t → i ≠ .reset →
    (¬ isStepOf c i → (t.ch c).runningCount = (s.ch c).runningCount ∧ (t.ch c).prevPins = (s.ch c).prevPins
      ∧ (t.ch c).queue <:+ (s.ch c).queue)
    ∧ (i ≠ .sample → i ≠ .sbegin → i ≠ .sstep →
      (t.ch c).previousSample = (s.ch c).previousSample ∧ (t.ch c).firstNonzeroSeen = (s.ch c).firstNonzeroSeen
        ∧ (t.ch c).lastDelta = (s.ch c).lastDelta ∧ t.smpPhase = s.smpPhase ∧ t.smpCur = s.smpCur
        ∧ (s.ch c).queue <+: (t.ch c).queue)
    ∧ (isStepOf c i → t.ch c.other = s.ch c.other)

/-- Telescoping (43_velocity_sampler.md R204 (c)): once the filter has fired, the raw deltas returned over any run
without a reset add up, modulo 2^32, to the first `previousSample` minus the last. -/
def Obligations.DeltasTelescope : Prop :=
  ∀ (es : List Instr) (s t : State) (c : Channel), s.smpPhase = .idle → (s.ch c).firstNonzeroSeen = true →
    (∀ i ∈ es, i ≠ .reset) → execAll es s = .next t → t.smpPhase = .idle →
    ∃ new, t.returned = s.returned ++ new ∧ rawSum c new = (s.ch c).previousSample - (t.ch c).previousSample

/-- `SMP.cur` is never read before it is written (10_state.md R30, U6): outside a drain its value changes nothing but
itself. -/
def Obligations.CurIsNeverReadBeforeWritten : Prop :=
  ∀ (s : State) (v : Word), draining s = false → AlikeButCur (step s) (step { s with smpCur := v })

/-- The sampler never reads the counter or the previous reading (10_state.md R21, R34): its events do the same
whatever these hold. -/
def Obligations.SamplerNeverReadsTheDecoder : Prop :=
  ∀ (i : Instr) (s : State) (c : Channel) (n : Word) (p : Pins), i = .sample ∨ i = .sbegin ∨ i = .sstep →
    exec i (withDecoder c n p s) = onNext (withDecoder c n p) (exec i s)

/-! ### Reset -/

/-- `RESET` in every state (70_reset_and_hazards.md R260, R261; all values but `firstNonzeroSeen` are the spec's
decisions D4, D5, D22, D30). `SMP.cur` is unspecified and unconstrained here (free value, log 4); that the pairs
already returned and the events lined up stay is the model's choice (log 5). -/
def Obligations.ResetClearsEverything : Prop :=
  ∀ s : State,
    ∃ t, exec .reset s = .next t
      ∧ (∀ c, (t.ch c).runningCount = 0x00000000#32 ∧ (t.ch c).prevPins = 0b00#2 ∧ (t.ch c).queue = []
          ∧ (t.ch c).previousSample = 0#32 ∧ (t.ch c).firstNonzeroSeen = false ∧ (t.ch c).lastDelta = 0#32)
      ∧ t.smpPhase = .idle ∧ t.outL = 0#32 ∧ t.outR = 0#32
      ∧ t.qdepth = s.qdepth ∧ t.trace = s.trace ∧ t.returned = s.returned

/-- The state after reset holds the values of 70_reset_and_hazards.md R260 (D4, D5, D30), for every `QDEPTH`. -/
def Obligations.ResetStateValues : Prop :=
  ∀ q : Nat,
    (∀ c, ((State.resetOf q).ch c).runningCount = 0x00000000#32 ∧ ((State.resetOf q).ch c).prevPins = 0b00#2
        ∧ ((State.resetOf q).ch c).queue = [] ∧ ((State.resetOf q).ch c).previousSample = 0#32
        ∧ ((State.resetOf q).ch c).firstNonzeroSeen = false ∧ ((State.resetOf q).ch c).lastDelta = 0#32)
      ∧ (State.resetOf q).smpPhase = .idle ∧ (State.resetOf q).outL = 0#32 ∧ (State.resetOf q).outR = 0#32

/-- Start-up (70_reset_and_hazards.md R262 (b)): after any steps of one decoder from reset, the oldest queued word is
zero, and the first call returns `(0, 0)` and leaves the filter unfired (D4, D5, D9). -/
def Obligations.FirstCallAfterResetConsultsZero : Prop :=
  ∀ (q : Nat) (c : Channel) (p : Pins) (ps : List Pins), 1 ≤ q →
    ∃ t u, execAll ((p :: ps).map (.dstep c)) (State.resetOf q) = .next t
      ∧ (t.ch c).queue.head? = some 0x00000000#32
      ∧ exec .sample t = .next u
      ∧ Returned 0#32 0#32 t u
      ∧ (u.ch c).firstNonzeroSeen = false

/-! ### Whole steps -/

/-- The invariant holds right after reset, for every `QDEPTH ≥ 1` and for the machine's own reset state
(10_state.md R36, D4, D5, D30). -/
def Obligations.InvariantAtReset : Prop :=
  (∀ q : Nat, 1 ≤ q → MachineInv (State.resetOf q)) ∧ MachineInv State.reset

/-- Every step from a state of the invariant that answers a next state keeps it (10_state.md R20, R23, R30, R36, R39). -/
def Obligations.EveryStepKeepsTheInvariant : Prop :=
  ∀ s t : State, MachineInv s → step s = .next t → MachineInv t

/-- A step takes the next byte of the placed trace and runs the instruction it decodes to, on the state without that
byte; a byte that is no event is refused by name (30_encoding.md R97, R98; 20_memory.md R68; that the trace is data of
the state is the model's choice, DESIGN CHOICE, log 2). That the event runs whatever stands behind it, a malformed byte
included, and that a byte that is no event is refused only when the step gets to it, are the model's choices too (DESIGN
CHOICE, log 11). -/
def Obligations.StepRunsTheDecodedEvent : Prop :=
  ∀ (s : State) (b : Byte) (rest : List Byte), s.trace = b :: rest →
    (∀ i, decode (.evt8 b) = .ok i → step s = exec i { s with trace := rest })
      ∧ ∀ e, decode (.evt8 b) = .error e → e = .malformedEvent b ∧ step s = .refused (.malformedEvent b)

/-- Where no event is placed the step is a free choice of the environment's: some decoder step, an invocation, or the
next access of a call in flight; it is never refused, and it faults only by an overlapping call (20_memory.md R68,
60_exceptions.md R245; the form of the choice is the model's, log 3). -/
def Obligations.FreeEnvironmentNeverStalls : Prop :=
  ∀ s : State, s.trace = [] →
    ∃ i, i.isEvent = true ∧ i ≠ .reset ∧ step s = exec i { s with drawn := s.drawn + 1 }
      ∧ (i = .sstep → s.smpPhase ≠ .idle)
      ∧ ((∃ t, step s = .next t) ∨ (s.smpPhase ≠ .idle ∧ step s = .fault .samplerReentry))

/-- A placed trace runs as the list of its events (30_encoding.md R98: a trace is read left to right, each event atomic).
That it is run from the state is the model's choice (DESIGN CHOICE, log 2); that its events run whatever stands behind
them, a malformed byte included, is the model's choice too (DESIGN CHOICE, log 11). -/
def Obligations.TraceRunsAsItsEvents : Prop :=
  ∀ (es : List Instr) (rest : List Byte) (s : State), (∀ i ∈ es, i.isEvent = true) →
    s.trace = es.map byteOf ++ rest →
    Host.Core.run Sys2Proof.core es.length s = execAll es { s with trace := rest }

/-! ### Written traces -/

/-- `HOLD c k` (30_encoding.md R100, D21): `k` same-state steps complete, each pushes the unchanged counter while there is
room, and nothing else changes. -/
def Obligations.HoldPushesTheUnchangedCounter : Prop :=
  ∀ (c : Channel) (k : Nat) (s : State),
    execAll (holdEvents c k s) s
      = .next (s.setCh c { s.ch c with
          queue := (s.ch c).queue
            ++ List.replicate (min k (s.qdepth - (s.ch c).queue.length)) (s.ch c).runningCount })

/-- The shorthands of a written trace expand where they stand (30_encoding.md R100, D21): the events worked out before the
run do what the tokens do when each is expanded in the state the run has reached; and so does the program's byte string,
placed (log 2), whatever stands behind it (log 11). -/
def Obligations.ShorthandsExpandWhereTheyStand : Prop :=
  (∀ (ks : List Token) (s : State), execAll (traceEvents s ks) s = execTokens ks s)
    ∧ ∀ (ks : List Token) (s : State) (rest : List Byte), s.trace = programBytes s ks ++ rest →
      Host.Core.run Sys2Proof.core (traceEvents s ks).length s = execTokens ks { s with trace := rest }

/-- The keys that are the decoder part of a program's encoding (30_encoding.md R100, D21) are those its steps present when
it runs. -/
def Obligations.ProgramKeysAreThoseOfTheRun : Prop :=
  ∀ (es : List Instr) (s t : State) (c : Channel) (p : Pins), (∀ i ∈ es, i.isEvent = true) → execAll es s = .next t →
    programKeys c s (es ++ [.dstep c p]) = programKeys c s es ++ [presentedKey c p t]

/-! ### Fairness -/

/-- Weak fairness (42_edge_decoder.md R175, 43_velocity_sampler.md R200, D24): from every state, and so from
every later one again, each decoder takes a step after some number of events, and a call in flight takes its next access
(or a placed `RESET` abandons it), unless the run stops before: by an overlapping call, which is the environment's breach
(D17), or by a malformed placed trace, which is refused only where the run gets to it (DESIGN CHOICE, logs 2 and 11). The
form of the schedule is the model's (DESIGN CHOICE, log 3). -/
def Obligations.TheEnvironmentIsWeaklyFair : Prop :=
  (∀ (s : State) (c : Channel),
    ∃ k, (∃ t p, Host.Core.run Sys2Proof.core k s = .next t ∧ nextEvent t = .ok (.dstep c p))
      ∨ Host.Core.run Sys2Proof.core k s = .fault .samplerReentry
      ∨ (s.trace ≠ [] ∧ ∃ r, Host.Core.run Sys2Proof.core k s = .refused r))
  ∧ ∀ s : State, s.smpPhase ≠ .idle →
    ∃ k, (∃ t, Host.Core.run Sys2Proof.core k s = .next t
        ∧ (nextEvent t = .ok .sstep ∨ (s.trace ≠ [] ∧ nextEvent t = .ok .reset)))
      ∨ Host.Core.run Sys2Proof.core k s = .fault .samplerReentry
      ∨ (s.trace ≠ [] ∧ ∃ r, Host.Core.run Sys2Proof.core k s = .refused r)

/-- A sample call always ends (43_velocity_sampler.md R200, 70_reset_and_hazards.md R276, D24): on every weakly fair run
from a state of the invariant there is, after every point, one at which no call is in flight. -/
def Obligations.FairRunsEndEveryCall : Prop :=
  ∀ (e : Nat → Instr) (σ : Nat → State), MachineInv (σ 0) → InfiniteRun e σ → WeaklyFair e σ →
    ∀ n, ∃ m, n ≤ m ∧ (σ m).smpPhase = .idle

/-- A fair run never lets a decoder's queue stay empty (42_edge_decoder.md R173, R175, D24): after every point there is
one right after a step of that decoder, at which its queue holds a word. -/
def Obligations.FairRunsRefillEveryQueue : Prop :=
  ∀ (e : Nat → Instr) (σ : Nat → State) (c : Channel), MachineInv (σ 0) → InfiniteRun e σ → WeaklyFair e σ →
    ∀ n, ∃ m, n < m ∧ (∃ p, e (m - 1) = .dstep c p) ∧ ((σ m).ch c).queue ≠ []
end

