-- ==== Sys2Proof/Laws/State.lean ====
section
/-! SUPPORT. The small lemmas of the state's accessors, so that no later proof unfolds a record update. -/

namespace Sys2Proof.Machine

@[simp] theorem ch_L (s : State) : s.ch .L = s.left := rfl
@[simp] theorem ch_R (s : State) : s.ch .R = s.right := rfl

@[simp] theorem other_other (c : Channel) : c.other.other = c := by cases c <;> rfl
@[simp] theorem other_ne (c : Channel) : c.other ≠ c := by cases c <;> decide
@[simp] theorem ne_other (c : Channel) : c ≠ c.other := by cases c <;> decide

/-- Updates of the fields beside the channels leave the channels alone. -/
@[simp] theorem ch_of_other_fields (s : State) (ph : Phase) (cu a b : Word) (q : Nat) (tr : List Byte)
    (re : List (Word × Word)) (d : Nat) (c : Channel) :
    State.ch (State.mk s.left s.right ph cu a b q tr re d) c = s.ch c := by cases c <;> rfl

@[simp] theorem ch_setCh_same (s : State) (c : Channel) (x : ChannelState) : (s.setCh c x).ch c = x := by
  cases c <;> rfl

theorem ch_setCh_ne (s : State) {c d : Channel} (x : ChannelState) (h : d ≠ c) : (s.setCh c x).ch d = s.ch d := by
  cases c <;> cases d <;> first | rfl | exact absurd rfl h

@[simp] theorem ch_setCh_other (s : State) (c : Channel) (x : ChannelState) :
    (s.setCh c x).ch c.other = s.ch c.other := by cases c <;> rfl

@[simp] theorem left_setCh_L (s : State) (x : ChannelState) : (s.setCh .L x).left = x := rfl
@[simp] theorem right_setCh_L (s : State) (x : ChannelState) : (s.setCh .L x).right = s.right := rfl
@[simp] theorem left_setCh_R (s : State) (x : ChannelState) : (s.setCh .R x).left = s.left := rfl
@[simp] theorem right_setCh_R (s : State) (x : ChannelState) : (s.setCh .R x).right = x := rfl

@[simp] theorem smpPhase_setCh (s : State) (c : Channel) (x : ChannelState) : (s.setCh c x).smpPhase = s.smpPhase := by
  cases c <;> rfl
@[simp] theorem smpCur_setCh (s : State) (c : Channel) (x : ChannelState) : (s.setCh c x).smpCur = s.smpCur := by
  cases c <;> rfl
@[simp] theorem outL_setCh (s : State) (c : Channel) (x : ChannelState) : (s.setCh c x).outL = s.outL := by
  cases c <;> rfl
@[simp] theorem outR_setCh (s : State) (c : Channel) (x : ChannelState) : (s.setCh c x).outR = s.outR := by
  cases c <;> rfl
@[simp] theorem qdepth_setCh (s : State) (c : Channel) (x : ChannelState) : (s.setCh c x).qdepth = s.qdepth := by
  cases c <;> rfl
@[simp] theorem trace_setCh (s : State) (c : Channel) (x : ChannelState) : (s.setCh c x).trace = s.trace := by
  cases c <;> rfl
@[simp] theorem returned_setCh (s : State) (c : Channel) (x : ChannelState) : (s.setCh c x).returned = s.returned := by
  cases c <;> rfl
@[simp] theorem drawn_setCh (s : State) (c : Channel) (x : ChannelState) : (s.setCh c x).drawn = s.drawn := by
  cases c <;> rfl

@[simp] theorem setCh_ch (s : State) (c : Channel) : s.setCh c (s.ch c) = s := by cases c <;> rfl

@[simp] theorem setCh_fields (s : State) (c : Channel) :
    s.setCh c
      (ChannelState.mk (s.ch c).runningCount (s.ch c).prevPins (s.ch c).queue (s.ch c).previousSample
        (s.ch c).firstNonzeroSeen (s.ch c).lastDelta) = s := by cases c <;> rfl

@[simp] theorem setCh_setCh (s : State) (c : Channel) (x y : ChannelState) :
    (s.setCh c x).setCh c y = s.setCh c y := by cases c <;> rfl

/-- The two channels are stored apart. -/
theorem setCh_comm (s : State) (c : Channel) (x y : ChannelState) :
    (s.setCh c x).setCh c.other y = (s.setCh c.other y).setCh c x := by cases c <;> rfl

/-- Two states with the same channels and the same other fields are the same state. -/
theorem state_ext {s t : State} (ch : ∀ c, s.ch c = t.ch c) (ph : s.smpPhase = t.smpPhase)
    (cu : s.smpCur = t.smpCur) (a : s.outL = t.outL) (b : s.outR = t.outR) (q : s.qdepth = t.qdepth)
    (tr : s.trace = t.trace) (re : s.returned = t.returned) (d : s.drawn = t.drawn) : s = t := by
  have l := ch .L
  have r := ch .R
  cases s; cases t
  simp_all

@[simp] theorem resetOf_qdepth (q : Nat) : (State.resetOf q).qdepth = q := rfl
@[simp] theorem resetOf_ch (q : Nat) (c : Channel) : (State.resetOf q).ch c = ChannelState.reset := by cases c <;> rfl

end Sys2Proof.Machine
end

