-- ==== Sys2Proof/Laws/Ops.lean ====
section
/-!
SUPPORT. One lemma per shared operation, saying everything it does: arithmetic on words, the table, the queue
primitives, the decoder step, the parts of a sample call; and that each keeps the stored data in canonical form.
-/

namespace Sys2Proof.Machine

/-! ### Arithmetic (00_scope.md R11) -/

theorem s32_eq_toInt (w : Word) : s32 w = w.toInt := by
  have h : (2147483648 ≤ w.toNat) ↔ ¬ 2 * w.toNat < 2 ^ 32 := by omega
  unfold s32
  rw [BitVec.toInt_eq_toNat_cond]
  have hm : w.getLsbD 31 = decide (2147483648 ≤ w.toNat) := by
    have := BitVec.msb_eq_decide w
    simpa [BitVec.msb_eq_getLsbD_last] using this
  rw [hm]
  by_cases c : 2147483648 ≤ w.toNat
  · have h' := h.1 c
    simp only [c, decide_true, if_true, h', if_false]
    rfl
  · have h' : 2 * w.toNat < 2 ^ 32 := by omega
    simp only [c, decide_false, h', if_true]
    rfl

theorem u32_s32 (w : Word) : u32 (s32 w) = w := by simp [u32, wrap32, s32_eq_toInt]

theorem wrap32_s32 (n : Int) : wrap32 (s32 (wrap32 n)) = wrap32 n := u32_s32 (wrap32 n)

theorem add32_eq (w : Word) (k : Int) : add32 w k = w + BitVec.ofInt 32 k := by
  unfold add32 wrap32
  rw [BitVec.ofInt_add]
  simp

/-- The raw delta is the words' difference (R196). -/
theorem rawDelta_eq (ps cur : Word) : rawDelta ps cur = ps - cur := by
  unfold rawDelta sub32
  rw [u32_s32, s32_eq_toInt, s32_eq_toInt]
  apply BitVec.eq_of_toInt_eq
  rw [BitVec.toInt_sub, wrap32, BitVec.toInt_ofInt]

/-- The output negation is the word's negation (R203). -/
theorem negated_eq (d : Word) : negated d = -d := by
  unfold negated neg32
  rw [u32_s32, s32_eq_toInt]
  simp [wrap32, BitVec.ofInt_neg]

theorem s32_eq_zero_iff (w : Word) : s32 w = 0 ↔ w = 0#32 := by
  rw [s32_eq_toInt]
  constructor
  · intro h; exact BitVec.eq_of_toInt_eq (by simpa using h)
  · rintro rfl; rfl

theorem glitchFires_eq (f : Bool) (w : Word) : glitchFires f w = (!f && decide (w ≠ 0#32)) := by
  simp [glitchFires, s32_eq_zero_iff]

theorem glitchNext_eq (f : Bool) (w : Word) : glitchNext f w = (f || decide (w ≠ 0#32)) := by
  cases f <;> simp [glitchNext, glitchFires_eq]

theorem consultedDelta_eq (ps : Word) (f : Bool) (w : Word) :
    consultedDelta ps f w = if f = false ∧ w ≠ 0#32 then 0#32 else ps - w := by
  cases f <;> simp [consultedDelta, glitchFires_eq, rawDelta_eq]

@[simp] theorem adj_noChange : adj .noChange = 0 := by decide
@[simp] theorem adj_increment : adj .increment = 1 := by decide
@[simp] theorem adj_decrement : adj .decrement = -1 := by decide

/-! ### Keys (30_encoding.md R91, R92) -/

@[simp] theorem keyPrev_keyOf (p q : Pins) : keyPrev (keyOf p q) = p := by revert p q; decide
@[simp] theorem keyCur_keyOf (p q : Pins) : keyCur (keyOf p q) = q := by revert p q; decide
@[simp] theorem keyOf_fields (k : Key) : keyOf (keyPrev k) (keyCur k) = k := by revert k; decide

/-! ### The queue primitives (41_output_queue.md R151, R152) -/

theorem queueFull_eq (d : Nat) (q : List Word) : queueFull d q = true ↔ ¬ q.length < d := by simp [queueFull]

/-- The queue after a push. -/
theorem qpush_eq (c : Channel) (w : Word) (s : State) :
    qpush c w s =
      s.setCh c { s.ch c with
        queue := if (s.ch c).queue.length < s.qdepth then (s.ch c).queue ++ [w] else (s.ch c).queue } := by
  by_cases h : (s.ch c).queue.length < s.qdepth <;> simp [qpush, queueFull, h]

/-- The word popped and the queue after the access. -/
theorem qtrypop_eq (c : Channel) (s : State) :
    qtrypop c s = ((s.ch c).queue.head?, s.setCh c { s.ch c with queue := (s.ch c).queue.tail }) := by
  unfold qtrypop
  cases h : (s.ch c).queue with
  | nil => simp only [List.head?_nil, List.tail_nil, Prod.mk.injEq, true_and]; rw [← h]; simp
  | cons w rest => rfl

/-! ### The decoder step (42_edge_decoder.md R170) -/

/-- Everything a decoder step at key `k` does. -/
theorem stepAtKey_eq (c : Channel) (k : Key) (s : State) :
    stepAtKey c k s =
      s.setCh c { s.ch c with
        runningCount := add32 (s.ch c).runningCount (adj (transitionTable k))
        queue :=
          if (s.ch c).queue.length < s.qdepth then
            (s.ch c).queue ++ [add32 (s.ch c).runningCount (adj (transitionTable k))]
          else (s.ch c).queue
        prevPins := keyCur k } := by
  simp [stepAtKey, latchPins, pushCount, applyAction, qpush_eq]

/-! ### The parts of a sample call (43_velocity_sampler.md R192 to R198) -/

theorem storeEmptyDelta_eq (c : Channel) (s : State) :
    storeEmptyDelta c s = s.setCh c { s.ch c with lastDelta := 0#32 } := rfl

theorem storeConsultedDelta_eq (c : Channel) (s : State) :
    storeConsultedDelta c s =
      s.setCh c { s.ch c with
        lastDelta := consultedDelta (s.ch c).previousSample (s.ch c).firstNonzeroSeen s.smpCur
        firstNonzeroSeen := glitchNext (s.ch c).firstNonzeroSeen s.smpCur
        previousSample := s.smpCur } := rfl

theorem returnPair_eq (s : State) :
    returnPair s =
      { s with
        smpPhase := .idle
        outL := s.left.lastDelta
        outR := -s.right.lastDelta
        returned := s.returned ++ [(s.left.lastDelta, -s.right.lastDelta)] } := by
  simp [returnPair, negated_eq]

/-- `k` accesses of the drain take the `k` oldest words. -/
theorem drain_eq (c : Channel) (k : Nat) (s : State) :
    drain c k s = s.setCh c { s.ch c with queue := (s.ch c).queue.drop k } := by
  induction k generalizing s with
  | zero => simp [drain]
  | succ k ih =>
    unfold drain
    rw [qtrypop_eq]
    cases h : (s.ch c).queue with
    | nil => simp
    | cons w rest => simp [ih]

/-- A whole `SAMPLE_CH(c)` on an empty queue (R193). -/
theorem sampleChannel_nil (c : Channel) (s : State) (h : (s.ch c).queue = []) :
    sampleChannel c s = s.setCh c { s.ch c with lastDelta := 0#32 } := by
  unfold sampleChannel
  rw [qtrypop_eq]
  simp [storeEmptyDelta_eq, h]

/-- A whole `SAMPLE_CH(c)` on a queue whose oldest word is `w` (R194 to R198). -/
theorem sampleChannel_cons (c : Channel) (s : State) (w : Word) (rest : List Word) (h : (s.ch c).queue = w :: rest) :
    sampleChannel c s =
      State.setCh { s with smpCur := w } c { s.ch c with
        queue := rest.drop (s.qdepth - 1)
        lastDelta := consultedDelta (s.ch c).previousSample (s.ch c).firstNonzeroSeen w
        firstNonzeroSeen := glitchNext (s.ch c).firstNonzeroSeen w
        previousSample := w } := by
  unfold sampleChannel
  rw [qtrypop_eq, h]
  cases c <;> simp_all [storeConsultedDelta_eq, drain_eq, consult, State.setCh]

/-- An access that finds the queue empty at the first try (R193). -/
theorem accessQueue_first_nil (c : Channel) (s : State) (h : (s.ch c).queue = []) :
    accessQueue c 0 s = leaveChannel c (storeEmptyDelta c s) := by
  unfold accessQueue
  rw [qtrypop_eq]
  simp [h, storeEmptyDelta_eq]

/-- An access that finds the queue empty inside the drain (R195). -/
theorem accessQueue_nil (c : Channel) (n : Nat) (s : State) (hn : n ≠ 0) (h : (s.ch c).queue = []) :
    accessQueue c n s = leaveChannel c (storeConsultedDelta c s) := by
  unfold accessQueue
  rw [qtrypop_eq]
  have e : s.setCh c { s.ch c with queue := (s.ch c).queue.tail } = s := by
    rw [show (s.ch c).queue.tail = (s.ch c).queue by rw [h]; rfl]; simp
  rw [e]
  simp [h, hn]

/-- An access that pops a word (R194, R195): the first one is consulted; the `QDEPTH`-th ends the drain. -/
theorem accessQueue_cons (c : Channel) (n : Nat) (s : State) (w : Word) (rest : List Word)
    (h : (s.ch c).queue = w :: rest) :
    accessQueue c n s =
      (let t := State.setCh { s with smpCur := if n = 0 then w else s.smpCur } c { s.ch c with queue := rest }
       if n + 1 = s.qdepth then leaveChannel c (storeConsultedDelta c t)
       else { t with smpPhase := .acc c (n + 1) }) := by
  unfold accessQueue
  rw [qtrypop_eq]
  by_cases hn : n = 0 <;> cases c <;> simp_all [consult, State.setCh]

/-! ### The canonical form of the stored data -/

theorem Memory.wf_iff (s : State) : Memory.wf s ↔ ∀ c, (s.ch c).queue.length ≤ s.qdepth :=
  ⟨fun h c => by cases c; exacts [h.1, h.2], fun h => ⟨h .L, h .R⟩⟩

/-- Replacing a channel by one whose queue fits keeps the form. -/
theorem setCh_keeps_wf (c : Channel) (x : ChannelState) (s : State) (hx : x.queue.length ≤ s.qdepth)
    (h : Memory.wf s) : Memory.wf (s.setCh c x) := by
  cases c
  · exact ⟨hx, h.2⟩
  · exact ⟨h.1, hx⟩

theorem qpush_keeps_wf (c : Channel) (w : Word) (s : State) (h : Memory.wf s) : Memory.wf (qpush c w s) := by
  rw [qpush_eq]
  refine setCh_keeps_wf c _ s ?_ h
  have := (Memory.wf_iff s).1 h c
  by_cases hq : (s.ch c).queue.length < s.qdepth
  · simp only [hq, if_true, List.length_append, List.length_singleton]; omega
  · simpa only [hq, if_false] using this

theorem qtrypop_keeps_wf (c : Channel) (s : State) (h : Memory.wf s) : Memory.wf (qtrypop c s).2 := by
  rw [qtrypop_eq]
  refine setCh_keeps_wf c _ s ?_ h
  have := (Memory.wf_iff s).1 h c
  simp only [List.length_tail]; omega

theorem stepAtKey_keeps_wf (c : Channel) (k : Key) (s : State) (h : Memory.wf s) : Memory.wf (stepAtKey c k s) := by
  have hq := qpush_keeps_wf c (applyAction c (transitionTable k) s |>.ch c).runningCount
    (applyAction c (transitionTable k) s) (setCh_keeps_wf c _ s ((Memory.wf_iff s).1 h c) h)
  exact setCh_keeps_wf c _ _ ((Memory.wf_iff _).1 hq c) hq

theorem drain_keeps_wf (c : Channel) (k : Nat) (s : State) (h : Memory.wf s) : Memory.wf (drain c k s) := by
  rw [drain_eq]
  refine setCh_keeps_wf c _ s ?_ h
  have := (Memory.wf_iff s).1 h c
  simp only [List.length_drop]; omega

theorem sampleChannel_keeps_wf (c : Channel) (s : State) (h : Memory.wf s) : Memory.wf (sampleChannel c s) := by
  have hc := (Memory.wf_iff s).1 h c
  cases hq : (s.ch c).queue with
  | nil => rw [sampleChannel_nil c s hq]; exact setCh_keeps_wf c _ s hc h
  | cons w rest =>
    rw [sampleChannel_cons c s w rest hq]
    refine setCh_keeps_wf c _ _ ?_ h
    rw [hq, List.length_cons] at hc
    simp only [List.length_drop]; omega

theorem reset_wf : Memory.wf State.reset := by decide

end Sys2Proof.Machine
end

