-- ==== Sys2Proof/Laws/Exec.lean ====
section
/-!
SUPPORT. What each shared operation and each dispatch can do, said once: frames of a decoder step and of a whole sample
channel, the three outcomes of a queue access, the dispatch equations, and how a list of instructions runs.
-/

namespace Sys2Proof.Machine

/-! ### The dispatch -/

theorem exec_decodeKey (c : Channel) (k : Key) (s : State) : exec (decodeKey c k) s = .next (stepAtKey c k s) := by
  have all : ∀ k : Key, k ∈ (List.range 16).map (BitVec.ofNat 4) := by decide
  have h := all k
  simp only [List.range, List.range.loop, List.map_cons, List.map_nil, List.mem_cons, List.not_mem_nil, or_false] at h
  rcases h with h | h | h | h | h | h | h | h | h | h | h | h | h | h | h | h <;> subst h <;> rfl

theorem exec_dstep_eq (c : Channel) (p : Pins) (s : State) :
    exec (.dstep c p) s = .next (stepAtKey c (presentedKey c p s) s) := rfl

theorem exec_sample_eq (s : State) :
    exec .sample s
      = if busy s then .fault .samplerReentry else .next (returnPair (sampleChannel .R (sampleChannel .L s))) := rfl

theorem exec_sbegin_eq (s : State) :
    exec .sbegin s = if busy s then .fault .samplerReentry else .next { s with smpPhase := .acc .L 0 } := rfl

theorem exec_sstep_acc {c : Channel} {n : Nat} {s : State} (h : s.smpPhase = .acc c n) :
    exec .sstep s = .next (accessQueue c n s) := by
  show execSstep s = _
  unfold execSstep
  rw [h]

theorem busy_iff (s : State) : busy s = true ↔ s.smpPhase ≠ .idle := by simp [busy]

theorem busy_of_idle {s : State} (h : s.smpPhase = .idle) : busy s = false := by simp [busy, h]

/-- An instruction is a key of some decoder, a decoder step, one of the sampler's three, or the reset. -/
theorem instr_cases (i : Instr) :
    (∃ c k, i = decodeKey c k) ∨ (∃ c p, i = .dstep c p) ∨ i = .sample ∨ i = .sbegin ∨ i = .sstep ∨ i = .reset := by
  cases i with
  | nochange0000 c => exact .inl ⟨c, 0, rfl⟩
  | nochange0001 c => exact .inl ⟨c, 1, rfl⟩
  | nochange0010 c => exact .inl ⟨c, 2, rfl⟩
  | nochange0011 c => exact .inl ⟨c, 3, rfl⟩
  | increment0100 c => exact .inl ⟨c, 4, rfl⟩
  | nochange0101 c => exact .inl ⟨c, 5, rfl⟩
  | nochange0110 c => exact .inl ⟨c, 6, rfl⟩
  | decrement0111 c => exact .inl ⟨c, 7, rfl⟩
  | decrement1000 c => exact .inl ⟨c, 8, rfl⟩
  | nochange1001 c => exact .inl ⟨c, 9, rfl⟩
  | nochange1010 c => exact .inl ⟨c, 10, rfl⟩
  | increment1011 c => exact .inl ⟨c, 11, rfl⟩
  | nochange1100 c => exact .inl ⟨c, 12, rfl⟩
  | nochange1101 c => exact .inl ⟨c, 13, rfl⟩
  | nochange1110 c => exact .inl ⟨c, 14, rfl⟩
  | nochange1111 c => exact .inl ⟨c, 15, rfl⟩
  | dstep c p => exact .inr (.inl ⟨c, p, rfl⟩)
  | sample => exact .inr (.inr (.inl rfl))
  | sbegin => exact .inr (.inr (.inr (.inl rfl)))
  | sstep => exact .inr (.inr (.inr (.inr (.inl rfl))))
  | reset => exact .inr (.inr (.inr (.inr (.inr rfl))))

/-! ### Frames of the shared operations -/

/-- A decoder step touches its channel's counter, queue and previous reading (R170). -/
theorem stepAtKey_frame (c : Channel) (k : Key) (s : State) : DecoderFrame c s (stepAtKey c k s) := by
  rw [stepAtKey_eq]; constructor <;> simp

/-- Leaving a channel touches no channel. -/
theorem leaveChannel_ch (c d : Channel) (s : State) : (leaveChannel c s).ch d = s.ch d := by
  cases c <;> cases d <;> rfl

theorem leaveChannel_others (c : Channel) (s : State) :
    (leaveChannel c s).smpCur = s.smpCur ∧ (leaveChannel c s).qdepth = s.qdepth
      ∧ (leaveChannel c s).trace = s.trace ∧ (leaveChannel c s).drawn = s.drawn := by
  cases c <;> exact ⟨rfl, rfl, rfl, rfl⟩

/-- The registers after steps 3 to 5 are the table's of R199. -/
theorem sampledRegisters_consulted (x : ChannelState) (v : Word) (q : List Word) :
    sampledRegisters x (some v)
      { x with
        queue := q
        lastDelta := consultedDelta x.previousSample x.firstNonzeroSeen v
        firstNonzeroSeen := glitchNext x.firstNonzeroSeen v
        previousSample := v } :=
  ⟨rfl, glitchNext_eq _ _, consultedDelta_eq _ _ _⟩

/-- The three things a queue access can do (R192): the channel ends with delta 0, the channel ends with the consulted
value, or a word leaves the queue and the drain goes on. -/
theorem accessQueue_cases (c : Channel) (n : Nat) (s : State) :
    ((s.ch c).queue = [] ∧ n = 0
      ∧ accessQueue c n s = leaveChannel c (s.setCh c { s.ch c with lastDelta := 0#32 }))
    ∨ (∃ v q,
        ((s.ch c).queue = [] ∧ n ≠ 0 ∧ v = s.smpCur ∧ q = []
          ∨ ∃ w, (s.ch c).queue = w :: q ∧ n + 1 = s.qdepth ∧ v = if n = 0 then w else s.smpCur)
        ∧ accessQueue c n s
            = leaveChannel c (State.setCh { s with smpCur := v } c
                { s.ch c with
                  queue := q
                  lastDelta := consultedDelta (s.ch c).previousSample (s.ch c).firstNonzeroSeen v
                  firstNonzeroSeen := glitchNext (s.ch c).firstNonzeroSeen v
                  previousSample := v }))
    ∨ ∃ w q, (s.ch c).queue = w :: q ∧ n + 1 ≠ s.qdepth
        ∧ accessQueue c n s
            = { (State.setCh { s with smpCur := if n = 0 then w else s.smpCur } c { s.ch c with queue := q }) with
                smpPhase := .acc c (n + 1) } := by
  cases hq : (s.ch c).queue with
  | nil =>
    by_cases hn : n = 0
    · subst hn
      exact .inl ⟨rfl, rfl, accessQueue_first_nil c s hq⟩
    · refine .inr (.inl ⟨s.smpCur, [], .inl ⟨rfl, hn, rfl, rfl⟩, ?_⟩)
      rw [accessQueue_nil c n s hn hq, storeConsultedDelta_eq, ← hq]
  | cons w q =>
    right
    rw [accessQueue_cons c n s w q hq]
    by_cases hd : n + 1 = s.qdepth
    · refine .inl ⟨_, q, .inr ⟨w, rfl, hd, rfl⟩, ?_⟩
      simp only [hd, if_true]
      rw [storeConsultedDelta_eq]
      cases c <;> rfl
    · exact .inr ⟨w, q, rfl, hd, by simp [hd]⟩

/-- Sampling one channel (R190, R199): its sampler registers and its queue, and nothing of the other channel. -/
theorem sampleChannel_channels (c : Channel) (s : State) :
    sampledRegisters (s.ch c) (s.ch c).queue.head? ((sampleChannel c s).ch c)
      ∧ ((sampleChannel c s).ch c).queue = (s.ch c).queue.tail.drop (s.qdepth - 1)
      ∧ ((sampleChannel c s).ch c).runningCount = (s.ch c).runningCount
      ∧ ((sampleChannel c s).ch c).prevPins = (s.ch c).prevPins
      ∧ (sampleChannel c s).ch c.other = s.ch c.other := by
  cases hq : (s.ch c).queue with
  | nil => rw [sampleChannel_nil c s hq]; simp [sampledRegisters, hq]
  | cons w rest => rw [sampleChannel_cons c s w rest hq]; simp [sampledRegisters, glitchNext_eq, consultedDelta_eq]

/-- Sampling one channel: of the rest only `SMP.cur` changes. -/
theorem sampleChannel_others (c : Channel) (s : State) :
    (sampleChannel c s).smpCur = (s.ch c).queue.head?.getD s.smpCur
      ∧ (sampleChannel c s).smpPhase = s.smpPhase ∧ (sampleChannel c s).outL = s.outL
      ∧ (sampleChannel c s).outR = s.outR ∧ (sampleChannel c s).qdepth = s.qdepth
      ∧ (sampleChannel c s).trace = s.trace ∧ (sampleChannel c s).returned = s.returned
      ∧ (sampleChannel c s).drawn = s.drawn := by
  cases hq : (s.ch c).queue with
  | nil => rw [sampleChannel_nil c s hq]; simp
  | cons w rest => rw [sampleChannel_cons c s w rest hq]; simp

/-! ### Lists of instructions -/

theorem execAll_cons_next {i : Instr} {es : List Instr} {s t : State} (h : exec i s = .next t) :
    execAll (i :: es) s = execAll es t := by simp only [execAll, h]

theorem execAll_cons_inv {i : Instr} {es : List Instr} {s u : State} (h : execAll (i :: es) s = .next u) :
    ∃ t, exec i s = .next t ∧ execAll es t = .next u := by
  unfold execAll at h
  split at h
  · exact ⟨_, ‹_›, h⟩
  · cases h
  · cases h

end Sys2Proof.Machine
end

