-- ==== Sys2Proof/Laws/PerInstr.lean ====
section
/-! SUPPORT. Statements for all instructions, made per instruction: the word of every instruction is well formed. -/

namespace Sys2Proof.Laws.WordIsWellFormed

/-- The word the encoder gives an instruction is one of the spec's (30_encoding.md R97, R98). -/
def Statement (i : Instr) : Prop := (encode i).wf = true

theorem nochange0000 (c : Channel) : Statement (.nochange0000 c) := rfl
theorem nochange0001 (c : Channel) : Statement (.nochange0001 c) := rfl
theorem nochange0010 (c : Channel) : Statement (.nochange0010 c) := rfl
theorem nochange0011 (c : Channel) : Statement (.nochange0011 c) := rfl
theorem increment0100 (c : Channel) : Statement (.increment0100 c) := rfl
theorem nochange0101 (c : Channel) : Statement (.nochange0101 c) := rfl
theorem nochange0110 (c : Channel) : Statement (.nochange0110 c) := rfl
theorem decrement0111 (c : Channel) : Statement (.decrement0111 c) := rfl
theorem decrement1000 (c : Channel) : Statement (.decrement1000 c) := rfl
theorem nochange1001 (c : Channel) : Statement (.nochange1001 c) := rfl
theorem nochange1010 (c : Channel) : Statement (.nochange1010 c) := rfl
theorem increment1011 (c : Channel) : Statement (.increment1011 c) := rfl
theorem nochange1100 (c : Channel) : Statement (.nochange1100 c) := rfl
theorem nochange1101 (c : Channel) : Statement (.nochange1101 c) := rfl
theorem nochange1110 (c : Channel) : Statement (.nochange1110 c) := rfl
theorem nochange1111 (c : Channel) : Statement (.nochange1111 c) := rfl
theorem dstep (c : Channel) (p : Pins) : Statement (.dstep c p) := by
  revert p; cases c <;> (unfold Statement; decide)
theorem sample : Statement .sample := rfl
theorem sbegin : Statement .sbegin := rfl
theorem sstep : Statement .sstep := rfl
theorem reset : Statement .reset := rfl

end Sys2Proof.Laws.WordIsWellFormed
end

