-- ==== Sys2Proof/Laws/Trace.lean ====
section
/-!
SUPPORT. The environment's choices and written traces: every choice is an event, its byte decodes to it, every turn of the
agents comes, and what the expansion of a trace depends on.
-/

namespace Sys2Proof.Machine

/-! ### The next event -/

/-- The byte of an event decodes to the event (R98). -/
theorem decode_byteOf {i : Instr} (h : i.isEvent = true) : decode (.evt8 (byteOf i)) = .ok i := by
  cases i with
  | dstep c p => revert p; cases c <;> decide
  | sample => rfl
  | sbegin => rfl
  | sstep => rfl
  | reset => rfl
  | _ => cases h

/-- A free move is an event, no reset, and an access only of a call in flight. -/
theorem drawnEvent_legal (m : BitVec 4) (b : Bool) :
    (drawnEvent m b).isEvent = true ∧ drawnEvent m b ≠ .reset ∧ (drawnEvent m b = .sstep → b = true) := by
  revert m; cases b <;> decide

/-- So is every choice of the environment. -/
theorem choiceAt_legal (n : Nat) (b : Bool) :
    (choiceAt n b).isEvent = true ∧ choiceAt n b ≠ .reset ∧ (choiceAt n b = .sstep → b = true) := by
  unfold choiceAt
  split
  · unfold fairEvent
    split
    · exact ⟨rfl, nofun, nofun⟩
    · split
      · exact ⟨rfl, nofun, fun _ => ‹_›⟩
      · exact drawnEvent_legal _ _
  · exact drawnEvent_legal _ _

theorem nextEvent_nil {s : State} (h : s.trace = []) : nextEvent s = .ok (choiceAt s.drawn (busy s)) := by
  unfold nextEvent nextByte
  rw [h]
  exact decode_byteOf (choiceAt_legal _ _).1

theorem nextEvent_cons {s : State} {b : Byte} {rest : List Byte} (h : s.trace = b :: rest) :
    nextEvent s = decode (.evt8 b) := by unfold nextEvent nextByte; rw [h]

theorem step_of_nextEvent {s : State} {i : Instr} (h : nextEvent s = .ok i) : step s = exec i (consumeEvent s) := by
  unfold step; rw [h]

/-- The turns pass on: the gap before a turn runs down. -/
theorem fairTurn_runs_down (n : Nat) (a : Agent) (k : Nat) (h : fairTurn n = (a, k)) : fairTurn (n + k) = (a, 0) := by
  induction k generalizing n with
  | zero => exact h
  | succ k ih =>
    have next : fairTurn (n + 1) = (a, k) := by simp only [fairTurn, h]
    rw [show n + (k + 1) = n + 1 + k by omega]
    exact ih _ next

/-- After every draw there is one at which the next agent's turn has come. -/
theorem fairTurn_passes_on {n : Nat} {a : Agent} (h : fairTurn n = (a, 0)) :
    ∃ m, n < m ∧ fairTurn m = (nextAgent a, 0) :=
  ⟨n + 1 + Config.freeGap (n + 1), by omega, fairTurn_runs_down _ _ _ (by simp only [fairTurn, h])⟩

/-- Every agent's turn comes after every draw (R175, R200). -/
theorem fairTurn_comes (n : Nat) (a : Agent) : ∃ m, n ≤ m ∧ fairTurn m = (a, 0) := by
  obtain ⟨m₀, h₀, t₀⟩ : ∃ m, n ≤ m ∧ ∃ b, fairTurn m = (b, 0) :=
    ⟨n + (fairTurn n).2, by omega, (fairTurn n).1, fairTurn_runs_down n _ _ rfl⟩
  obtain ⟨b, t₀⟩ := t₀
  obtain ⟨m₁, h₁, t₁⟩ := fairTurn_passes_on t₀
  obtain ⟨m₂, h₂, t₂⟩ := fairTurn_passes_on t₁
  have all : a = b ∨ a = nextAgent b ∨ a = nextAgent (nextAgent b) := by
    rcases a with (_ | _) | _ <;> rcases b with (_ | _) | _ <;> decide
  rcases all with rfl | rfl | rfl
  · exact ⟨m₀, h₀, t₀⟩
  · exact ⟨m₁, by omega, t₁⟩
  · exact ⟨m₂, by omega, t₂⟩

theorem choiceAt_decoder {n : Nat} {c : Channel} (h : fairTurn n = (.decoder c, 0)) (b : Bool) :
    choiceAt n b = .dstep c ((Config.freeMove n).extractLsb' 0 2) := by
  unfold choiceAt; rw [h]; rfl

theorem choiceAt_sampler {n : Nat} (h : fairTurn n = (.sampler, 0)) : choiceAt n true = .sstep := by
  unfold choiceAt; rw [h]; rfl

/-! ### Written traces -/

theorem latchReading_ch_prevPins (s : State) (c d : Channel) (p : Pins) :
    ((latchReading s (.dstep d p)).ch c).prevPins = if d = c then p else (s.ch c).prevPins := by
  cases c <;> cases d <;> rfl

/-- An event of a run does to the previous readings what `latchReading` says. -/
theorem exec_latches {i : Instr} {s t : State} (he : i.isEvent = true) (h : exec i s = .next t) (c : Channel) :
    (t.ch c).prevPins = ((latchReading s i).ch c).prevPins := by
  rcases instr_cases i with ⟨d, k, rfl⟩ | ⟨d, p, rfl⟩ | rfl | rfl | rfl | rfl
  · have key : ∀ k : Key, (decodeKey d k).isEvent = false := by cases d <;> decide
    rw [key k] at he; cases he
  · rw [exec_dstep_eq] at h; cases h
    rw [latchReading_ch_prevPins, stepAtKey_eq]
    cases c <;> cases d <;> simp [presentedKey]
  · rw [exec_sample_eq] at h
    split at h
    · cases h
    · cases h
      have l := sampleChannel_channels .L s
      have r := sampleChannel_channels .R (sampleChannel .L s)
      cases c
      · exact (congrArg ChannelState.prevPins r.2.2.2.2).trans l.2.2.2.1
      · exact r.2.2.2.1.trans (congrArg ChannelState.prevPins l.2.2.2.2)
  · rw [exec_sbegin_eq] at h
    split at h
    · cases h
    · cases h; cases c <;> rfl
  · cases hp : s.smpPhase with
    | idle =>
      have : exec .sstep s = .refused .sstepOutsideCall := by show execSstep s = _; unfold execSstep; rw [hp]
      rw [this] at h; cases h
    | acc d n =>
      rw [exec_sstep_acc hp] at h; cases h
      rcases accessQueue_cases d n s with ⟨-, -, e⟩ | ⟨v, q, -, e⟩ | ⟨w, q, -, -, e⟩ <;> rw [e] <;>
        cases c <;> cases d <;> rfl
  · cases h; cases c <;> rfl

/-- The expansion of a trace depends on the previous readings alone. -/
theorem traceEvents_congr (ks : List Token) (s t : State) (h : ∀ c, (s.ch c).prevPins = (t.ch c).prevPins) :
    traceEvents s ks = traceEvents t ks := by
  have one : ∀ (s t : State) (i : Instr), (∀ c, (s.ch c).prevPins = (t.ch c).prevPins) →
      ∀ c, ((latchReading s i).ch c).prevPins = ((latchReading t i).ch c).prevPins := by
    intro s t i h c
    cases i <;> first | exact h c | skip
    · rw [latchReading_ch_prevPins, latchReading_ch_prevPins, h c]
    · cases c <;> rfl
  have many : ∀ (es : List Instr) (s t : State), (∀ c, (s.ch c).prevPins = (t.ch c).prevPins) →
      ∀ c, ((es.foldl latchReading s).ch c).prevPins = ((es.foldl latchReading t).ch c).prevPins := by
    intro es
    induction es with
    | nil => exact fun _ _ h => h
    | cons i es ih => exact fun s t h => ih _ _ (one s t i h)
  induction ks generalizing s t with
  | nil => rfl
  | cons k ks ih =>
    have e : tokenEvents s k = tokenEvents t k := by
      cases k <;> first | rfl | skip
      simp only [tokenEvents, holdEvents, h]
    unfold traceEvents
    rw [e, ih _ _ (many _ s t h)]

theorem tokenEvents_isEvent (s : State) (k : Token) : ∀ i ∈ tokenEvents s k, i.isEvent = true := by
  cases k <;> simp [tokenEvents, pinsEvents, holdEvents, bothEvents, Instr.isEvent]

theorem execAll_append {es fs : List Instr} {s : State} :
    execAll (es ++ fs) s = match execAll es s with
      | .next t => execAll fs t
      | .fault r => .fault r
      | .refused r => .refused r := by
  induction es generalizing s with
  | nil => rfl
  | cons i es ih =>
    simp only [List.cons_append, execAll]
    cases exec i s with
    | next t => exact ih
    | fault r => rfl
    | refused r => rfl

end Sys2Proof.Machine
end

