-- ==== Sys2Proof/Tests/Slice0.lean ====
section
/-!
SUPPORT. Tests: the WellFormed smoke, decoding of words written out bit by bit from 30_encoding.md and
40_transition_table.md, one-step tests with the expected values of 95_test_vectors.md (T-n), and a witness for the
hypotheses of every statement that has some.
-/

namespace Sys2Proof.Tests

open Sys2Proof.Machine

/-! ### Helpers -/

/-- A channel: counter, previous reading, queue, `ps`, `fnz`, `ld`. -/
def chan (cnt : Word) (prev : Pins) (q : List Word) (ps : Word) (fnz : Bool) (ld : Word) : ChannelState where
  runningCount := cnt
  prevPins := prev
  queue := q
  previousSample := ps
  firstNonzeroSeen := fnz
  lastDelta := ld

/-- A channel at reset but for its queue and the sampler's registers. -/
def sampled (q : List Word) (ps : Word) (fnz : Bool) (ld : Word) : ChannelState := chan 0#32 0b00#2 q ps fnz ld

/-- A state with the given `QDEPTH` and channels, all else at reset. -/
def st (q : Nat) (l r : ChannelState) : State := { State.resetOf q with left := l, right := r }

/-- The state has a call in flight at `ACC(c, n)`. -/
def atAcc (c : Channel) (n : Nat) (cur : Word) (s : State) : State := { s with smpPhase := .acc c n, smpCur := cur }

/-- The outcome is a next state that passes the check. -/
def passes (f : State → Bool) : Host.Outcome State Fault Refusal → Bool
  | .next t => f t
  | .fault _ => false
  | .refused _ => false

/-- Section 2.1 of the vectors: one step of L from `cnt = 0x10`, empty queue: the counter, the queue, `prev` after. -/
def keyVector (i : Instr) (prev cur : Pins) (cnt : Word) : Bool :=
  passes (fun t => t.left.runningCount == cnt && t.left.queue == [cnt] && t.left.prevPins == cur)
    (exec i (st 1 (chan 0x10#32 prev [] 0#32 false 0#32) .reset))

/-- Section 2.2: one step of R from `cnt`, on an empty queue: the counter after, also pushed. -/
def wrapVector (i : Instr) (prev : Pins) (cnt after : Word) : Bool :=
  passes (fun t => t.right.runningCount == after && t.right.queue == [after])
    (exec i (st 4 .reset (chan cnt prev [] 0#32 false 0#32)))

/-! ### Well-formedness -/

/-- T-89: byte `08` is no event. -/
theorem test_wf_refuses_byte_08 : (Code.evt8 0x08#8).wf = false := by decide
/-- R97: the bytes beside `40`, `41`, `42`, and those beside `80`, are no events. -/
theorem test_wf_refuses_neighbours :
    (Code.evt8 0x3F#8).wf = false ∧ (Code.evt8 0x43#8).wf = false ∧ (Code.evt8 0x7F#8).wf = false
      ∧ (Code.evt8 0x81#8).wf = false ∧ (Code.evt8 0xFF#8).wf = false := by decide
/-- R98: a key is no event of a trace. -/
theorem test_key_is_no_event : (Instr.increment0100 .L).isEvent = false := by decide
/-- T-88 and R99: an `s` without an `S{` before it, and one whose call a `RESET` abandoned. -/
theorem test_trace_refuses_stray_s :
    traceWf false [0x80#8, 0x42#8] = false ∧ traceWf false [0x41#8, 0x80#8, 0x42#8] = false := by decide
/-- T-89: a trace with a byte that is no event. -/
theorem test_trace_refuses_bad_byte : traceWf false [0x80#8, 0x08#8] = false := by decide
/-- T-90's trace is well formed. -/
theorem test_trace_wf : traceWf false [0x80#8, 0x02#8, 0x03#8, 0x41#8, 0x42#8, 0x80#8, 0x40#8] = true := by decide

/-! ### Decoding, each word written out from the spec -/

theorem test_decode_nochange0000 : decode (.key4 .L 0b0000#4) = .ok (.nochange0000 .L) := by decide
theorem test_decode_nochange0001 : decode (.key4 .R 0b0001#4) = .ok (.nochange0001 .R) := by decide
theorem test_decode_nochange0010 : decode (.key4 .L 0b0010#4) = .ok (.nochange0010 .L) := by decide
theorem test_decode_nochange0011 : decode (.key4 .R 0b0011#4) = .ok (.nochange0011 .R) := by decide
theorem test_decode_increment0100 : decode (.key4 .L 0b0100#4) = .ok (.increment0100 .L) := by decide
theorem test_decode_nochange0101 : decode (.key4 .R 0b0101#4) = .ok (.nochange0101 .R) := by decide
theorem test_decode_nochange0110 : decode (.key4 .L 0b0110#4) = .ok (.nochange0110 .L) := by decide
theorem test_decode_decrement0111 : decode (.key4 .R 0b0111#4) = .ok (.decrement0111 .R) := by decide
theorem test_decode_decrement1000 : decode (.key4 .L 0b1000#4) = .ok (.decrement1000 .L) := by decide
theorem test_decode_nochange1001 : decode (.key4 .R 0b1001#4) = .ok (.nochange1001 .R) := by decide
theorem test_decode_nochange1010 : decode (.key4 .L 0b1010#4) = .ok (.nochange1010 .L) := by decide
theorem test_decode_increment1011 : decode (.key4 .R 0b1011#4) = .ok (.increment1011 .R) := by decide
theorem test_decode_nochange1100 : decode (.key4 .L 0b1100#4) = .ok (.nochange1100 .L) := by decide
theorem test_decode_nochange1101 : decode (.key4 .R 0b1101#4) = .ok (.nochange1101 .R) := by decide
theorem test_decode_nochange1110 : decode (.key4 .L 0b1110#4) = .ok (.nochange1110 .L) := by decide
theorem test_decode_nochange1111 : decode (.key4 .R 0b1111#4) = .ok (.nochange1111 .R) := by decide
/-- `00000cpp` (R98): c = 0 is L, c = 1 is R. -/
theorem test_decode_dstep :
    decode (.evt8 0b00000000#8) = .ok (.dstep .L 0b00#2) ∧ decode (.evt8 0b00000001#8) = .ok (.dstep .L 0b01#2)
      ∧ decode (.evt8 0b00000110#8) = .ok (.dstep .R 0b10#2) ∧ decode (.evt8 0b00000111#8) = .ok (.dstep .R 0b11#2) := by
  decide
theorem test_decode_sample : decode (.evt8 0b01000000#8) = .ok .sample := by decide
theorem test_decode_sbegin : decode (.evt8 0b01000001#8) = .ok .sbegin := by decide
theorem test_decode_sstep : decode (.evt8 0b01000010#8) = .ok .sstep := by decide
theorem test_decode_reset : decode (.evt8 0b10000000#8) = .ok .reset := by decide
/-- T-89. -/
theorem test_decode_refuses_08 : decode (.evt8 0b00001000#8) = .error (.malformedEvent 0b00001000#8) := by decide
/-- R100: `PINS L 10 11 01 00` is `02 03 01 00` (section 3 of the vectors), `BOTH 10` is `02 06` (P2). -/
theorem test_pseudo_events :
    programBytes (State.resetOf 4) [.pins .L [0b10#2, 0b11#2, 0b01#2, 0b00#2]] = [0x02#8, 0x03#8, 0x01#8, 0x00#8]
      ∧ programBytes (State.resetOf 4) [.both 0b10#2] = [0x02#8, 0x06#8] := by decide
/-- R100: `HOLD` repeats the reading that the events before it left, and `00` after a `RESET`. -/
theorem test_hold_expands :
    programBytes (State.resetOf 4) [.d .R 0b11#2, .d .L 0b01#2, .hold .R 2, .reset, .hold .R 1]
      = [0x07#8, 0x01#8, 0x07#8, 0x07#8, 0x80#8, 0x04#8] := by decide
/-- T-18: the keys of `PINS L 10 11 01 00` from reset. -/
theorem test_program_keys :
    programKeys .L (State.resetOf 16) (pinsEvents .L [0b10#2, 0b11#2, 0b01#2, 0b00#2])
      = [0b0010#4, 0b1011#4, 0b1101#4, 0b0100#4] := by decide
/-- Words as the opcode table numbers them: a key, an event, no word. -/
theorem test_table_words :
    decodeTableWord 8 0b0111 = some (.decrement0111 .L) ∧ decodeTableWord 8 0x42 = some .sstep
      ∧ decodeTableWord 8 0x81 = none := by decide

/-! ### The table and the arithmetic -/

/-- T-17 and R93: the contributions of the four counting entries. -/
theorem test_rom : 0x100 + 0xC000 + 0x30000 + 0x400000 = romWord.toNat := by decide
/-- T-60 to T-63. -/
theorem test_s32 :
    s32 0xFFFFFFFF#32 = -1 ∧ s32 0x7FFFFFFF#32 = 2147483647 ∧ s32 0x80000000#32 = -2147483648
      ∧ s32 0#32 = 0 ∧ s32 1#32 = 1 ∧ s32 0xFFFFFFFE#32 = -2 := by decide
/-- T-64, T-65, T-68, T-72. -/
theorem test_sub32 :
    sub32 2147483647 (-2147483648) = -1 ∧ sub32 (-2147483648) 2147483647 = 1 ∧ sub32 (-1) 1 = -2
      ∧ sub32 100 (-100) = 200 := by decide
/-- T-73, T-74, T-71. -/
theorem test_neg32 :
    sub32 0 (-2147483648) = -2147483648 ∧ neg32 (-2147483648) = -2147483648 ∧ neg32 3 = -3 := by decide
/-- T-31, T-32, T-33. -/
theorem test_qpush :
    (qpush .L 3#32 (st 4 (sampled [1#32, 2#32, 2#32] 0#32 false 0#32) .reset)).left.queue = [1#32, 2#32, 2#32, 3#32]
      ∧ (qpush .L 4#32 (st 4 (sampled [1#32, 2#32, 2#32, 3#32] 0#32 false 0#32) .reset)).left.queue
          = [1#32, 2#32, 2#32, 3#32]
      ∧ (qpush .R 8#32 (st 1 .reset (sampled [7#32] 0#32 false 0#32))).right.queue = [7#32] := by decide
/-- T-34, T-36. -/
theorem test_qtrypop :
    (qtrypop .L (st 4 (sampled [1#32, 2#32] 0#32 false 0#32) .reset)).1 = some 1#32
      ∧ (qtrypop .L (st 4 (sampled [1#32, 2#32] 0#32 false 0#32) .reset)).2.left.queue = [2#32]
      ∧ (qtrypop .R (State.resetOf 4)).1 = none := by decide
/-- T-45, T-46, T-48, T-50: the delta and the glitch-filter register. -/
theorem test_glitch_filter :
    (consultedDelta 0#32 false 0#32 = 0#32 ∧ glitchNext false 0#32 = false)
      ∧ (consultedDelta 0#32 false 3#32 = 0#32 ∧ glitchNext false 3#32 = true)
      ∧ (consultedDelta 0#32 false 0xFFFFFFFF#32 = 0#32 ∧ glitchNext false 0xFFFFFFFF#32 = true)
      ∧ (consultedDelta 0#32 false 0x80000000#32 = 0#32 ∧ glitchNext false 0x80000000#32 = true) := by decide
/-- T-47, T-51: reported normally after firing; step 3 stands where the filter does not fire. -/
theorem test_reported_delta :
    s32 (consultedDelta 3#32 true 5#32) = -2 ∧ glitchNext true 5#32 = true
      ∧ s32 (consultedDelta 7#32 false 0#32) = 7 ∧ glitchNext false 0#32 = false := by decide

/-! ### One step of each instruction -/

/-- T-01 -/
theorem test_nochange0000 : keyVector (.nochange0000 .L) 0b00#2 0b00#2 0x10#32 = true := by decide
/-- T-02 -/
theorem test_nochange0001 : keyVector (.nochange0001 .L) 0b00#2 0b01#2 0x10#32 = true := by decide
/-- T-03 -/
theorem test_nochange0010 : keyVector (.nochange0010 .L) 0b00#2 0b10#2 0x10#32 = true := by decide
/-- T-04 -/
theorem test_nochange0011 : keyVector (.nochange0011 .L) 0b00#2 0b11#2 0x10#32 = true := by decide
/-- T-05 -/
theorem test_increment0100 : keyVector (.increment0100 .L) 0b01#2 0b00#2 0x11#32 = true := by decide
/-- T-06 -/
theorem test_nochange0101 : keyVector (.nochange0101 .L) 0b01#2 0b01#2 0x10#32 = true := by decide
/-- T-07 -/
theorem test_nochange0110 : keyVector (.nochange0110 .L) 0b01#2 0b10#2 0x10#32 = true := by decide
/-- T-08 -/
theorem test_decrement0111 : keyVector (.decrement0111 .L) 0b01#2 0b11#2 0x0F#32 = true := by decide
/-- T-09 -/
theorem test_decrement1000 : keyVector (.decrement1000 .L) 0b10#2 0b00#2 0x0F#32 = true := by decide
/-- T-10 -/
theorem test_nochange1001 : keyVector (.nochange1001 .L) 0b10#2 0b01#2 0x10#32 = true := by decide
/-- T-11 -/
theorem test_nochange1010 : keyVector (.nochange1010 .L) 0b10#2 0b10#2 0x10#32 = true := by decide
/-- T-12 -/
theorem test_increment1011 : keyVector (.increment1011 .L) 0b10#2 0b11#2 0x11#32 = true := by decide
/-- T-13 -/
theorem test_nochange1100 : keyVector (.nochange1100 .L) 0b11#2 0b00#2 0x10#32 = true := by decide
/-- T-14 -/
theorem test_nochange1101 : keyVector (.nochange1101 .L) 0b11#2 0b01#2 0x10#32 = true := by decide
/-- T-15 -/
theorem test_nochange1110 : keyVector (.nochange1110 .L) 0b11#2 0b10#2 0x10#32 = true := by decide
/-- T-16 -/
theorem test_nochange1111 : keyVector (.nochange1111 .L) 0b11#2 0b11#2 0x10#32 = true := by decide
/-- T-25 -/
theorem test_increment0100_wraps : wrapVector (.increment0100 .R) 0b01#2 0xFFFFFFFF#32 0#32 = true := by decide
/-- T-26 -/
theorem test_decrement0111_wraps : wrapVector (.decrement0111 .R) 0b01#2 0#32 0xFFFFFFFF#32 = true := by decide
/-- T-27 -/
theorem test_increment1011_wraps : wrapVector (.increment1011 .R) 0b10#2 0x7FFFFFFF#32 0x80000000#32 = true := by decide
/-- T-28 -/
theorem test_decrement1000_wraps : wrapVector (.decrement1000 .R) 0b10#2 0x80000000#32 0x7FFFFFFF#32 = true := by decide
/-- T-29 -/
theorem test_nochange1111_pushes : wrapVector (.nochange1111 .R) 0b11#2 0x80000000#32 0x80000000#32 = true := by decide
/-- T-38: the push is dropped, the counter keeps the count. -/
theorem test_dstep_full :
    passes (fun t => t.right.runningCount == 0xFFFFFFFE#32 && t.right.queue == [0#32, 0xFFFFFFFF#32]
        && t.right.prevPins == 0b00#2)
      (exec (.dstep .R 0b00#2) (st 2 .reset (chan 0xFFFFFFFF#32 0b10#2 [0#32, 0xFFFFFFFF#32] 0#32 false 0#32)))
      = true := by decide
/-- T-12 as an event: key `{10, 11}` is formed from the previous reading and the new one. -/
theorem test_dstep_key : keyVector (.dstep .L 0b11#2) 0b10#2 0b11#2 0x11#32 = true := by decide
/-- T-75 -/
theorem test_sample_extreme :
    passes (fun t => t.returned == [(0#32, 0x80000000#32)] && t.left.firstNonzeroSeen
        && t.outL == 0#32 && t.outR == 0x80000000#32)
      (exec .sample (st 4 (sampled [0x80000000#32] 0#32 false 0#32) (sampled [0x80000000#32] 0#32 true 0#32)))
      = true := by decide
/-- T-76: the right component is negated, the stored delta is not. -/
theorem test_sample_sign :
    passes (fun t => t.returned == [(7#32, 0xFFFFFFF9#32)] && t.left.lastDelta == 7#32 && t.right.lastDelta == 7#32
        && t.left.previousSample == 0#32)
      (exec .sample (st 4 (sampled [0#32] 7#32 true 0#32) (sampled [0#32] 7#32 true 0#32))) = true := by decide
/-- R191: the call starts at channel L with no word popped. -/
theorem test_sbegin : passes (fun t => t.smpPhase == .acc .L 0) (exec .sbegin (State.resetOf 4)) = true := by decide
/-- T-86: a second `S{`. -/
theorem test_sbegin_overlap : exec .sbegin (atAcc .L 0 0#32 (State.resetOf 4)) = .fault .samplerReentry := by rfl
/-- T-80, push first, second `s`: `sub32(5, 6) = -1`, and the call goes on to R. -/
theorem test_sstep_ends_left :
    passes (fun t => t.left.lastDelta == 0xFFFFFFFF#32 && t.left.previousSample == 6#32 && t.smpPhase == .acc .R 0
        && t.returned == [])
      (exec .sstep (atAcc .L 1 6#32 (st 4 (chan 6#32 0b00#2 [] 5#32 true 0#32) .reset))) = true := by decide
/-- T-88: an `s` with no call in flight. -/
theorem test_sstep_outside : exec .sstep (State.resetOf 4) = .refused .sstepOutsideCall := by rfl
/-- T-90: the call in flight is abandoned without a return and every element is at its reset value. -/
theorem test_reset :
    passes (fun t => t.left == .reset && t.right == .reset && t.smpPhase == .idle && t.returned == []
        && t.outL == 0#32 && t.outR == 0#32)
      (exec .reset (atAcc .R 0 0#32 (st 4 (chan 1#32 0b11#2 [] 0#32 false 0#32) .reset))) = true := by decide
/-- T-85: after `RESET S{`, the event `S` faults when the trace reader gets to it. -/
theorem test_step_overlap :
    step { atAcc .L 0 0#32 (State.resetOf 4) with trace := [0x40#8] } = .fault .samplerReentry := by rfl
/-- T-89: the trace reader refuses byte `08`. -/
theorem test_step_malformed :
    step { State.resetOf 4 with trace := [0x08#8] } = .refused (.malformedEvent 0x08#8) := by rfl
/-- T-05 by the fetch: the word `0100` placed after reset runs as decoder L's step at that key. -/
theorem test_fetch_word :
    passes (fun t => t.left.runningCount == 1#32 && t.left.queue == [1#32] && t.left.prevPins == 0b00#2)
      (step (State.reset.withFetchWord 8 0b0100)) = true := by decide

/-! ### Witnesses: the hypotheses of each statement are met -/

/-- States whose two channels hold the given previous reading, for `KeyRow`. -/
def withPrev (p : Pins) : State := st 1 (chan 0#32 p [] 0#32 false 0#32) (chan 0#32 p [7#32] 0#32 false 0#32)

/-- KeyRow, rows of `NoChangeKeysKeepTheCounter` (previous readings `00`, `01`, `10`, `11`); room on L, full on R. -/
theorem test_witness_nochange_keys (p : Pins) (c : Channel) : ((withPrev p).ch c).prevPins = p := by cases c <;> rfl
theorem test_witness_increment_keys (c : Channel) :
    ((withPrev 0b01#2).ch c).prevPins = 0b01#2 ∧ ((withPrev 0b10#2).ch c).prevPins = 0b10#2 := by
  cases c <;> exact ⟨rfl, rfl⟩
theorem test_witness_decrement_keys (c : Channel) :
    ((withPrev 0b01#2).ch c).prevPins = 0b01#2 ∧ ((withPrev 0b10#2).ch c).prevPins = 0b10#2 := by
  cases c <;> exact ⟨rfl, rfl⟩
theorem test_witness_queue_room_and_full :
    ((withPrev 0b01#2).ch .L).queue.length < (withPrev 0b01#2).qdepth
      ∧ ¬ ((withPrev 0b01#2).ch .R).queue.length < (withPrev 0b01#2).qdepth := by decide

theorem test_witness_DecodeEncodeAgree :
    decode (.key4 .R 0b1011#4) = .ok (.increment1011 .R) ∧ decode (.evt8 0x80#8) = .ok .reset := by decide
theorem test_witness_ArithmeticPrimitives :
    (0x80000000#32).getLsbD 31 = true ∧ (0x7FFFFFFF#32).getLsbD 31 = false
      ∧ (-2 ^ 31 : Int) ≤ 2 ^ 31 - 1 ∧ 2 ≤ 4 := by decide
theorem test_witness_KeyRowsIgnoreThePreviousReading : decode (.key4 .L 0b0111#4) = .ok (.decrement0111 .L) := by
  decide

/-- A run of L's decoder with a call of the sampler inside it. -/
def mixedRun : List Instr := [.dstep .L 0b10#2, .sbegin, .dstep .L 0b11#2, .sstep, .dstep .R 0b01#2]

theorem test_witness_CounterFollowsItsReadings :
    (∀ i ∈ mixedRun, i.isEvent = true ∧ i ≠ .reset) ∧ ∃ t, execAll mixedRun (State.resetOf 4) = .next t :=
  ⟨by decide, _, rfl⟩
theorem test_witness_PinSequencesCount :
    ((withPrev 0b00#2).ch .R).prevPins = 0b00#2 ∧ ((withPrev 0b01#2).ch .L).prevPins = 0b01#2 := by decide
theorem test_witness_FirstStepNeverCounts :
    ((withPrev 0b00#2).ch .L).prevPins = 0b00#2 ∧ ((withPrev 0b11#2).ch .R).prevPins = 0b11#2 ∧ 1 ≤ 1 := by decide
theorem test_witness_ChannelsCommute :
    (atAcc .R 1 0#32 (State.resetOf 4)).smpPhase = .acc (Channel.L).other 1
      ∧ (atAcc .L 0 0#32 (State.resetOf 4)).smpPhase = .acc (Channel.R).other 0 := by decide
theorem test_witness_FullQueueDropsTheNewest :
    (((withPrev 0b00#2).ch .L).queue.length < (withPrev 0b00#2).qdepth)
      ∧ ¬ ((withPrev 0b00#2).ch .R).queue.length < (withPrev 0b00#2).qdepth := by decide
theorem test_witness_TryPopTakesTheOldest :
    ((withPrev 0b00#2).ch .L).queue = [] ∧ ((withPrev 0b00#2).ch .R).queue = 7#32 :: [] := by decide
/-- `QueuesAreFifo`, `GlitchFilterFiresOnce` and `EachElementHasOneWriter`: an event that completes; here a push, a
call that fires the filter, one of the sampler's own. -/
theorem test_witness_QueuesAreFifo :
    (∃ t, exec (.dstep .L 0b10#2) (State.resetOf 1) = .next t) ∧ ∃ t, exec .sample (withPrev 0b00#2) = .next t :=
  ⟨⟨_, rfl⟩, _, rfl⟩
theorem test_witness_PushAndPopOrdersDiffer_full :
    let s := atAcc .R 0 0#32 (withPrev 0b00#2)
    1 ≤ s.qdepth ∧ s.smpPhase = .acc .R 0 ∧ (s.ch .R).queue.length = s.qdepth := by decide
theorem test_witness_PushAndPopOrdersDiffer_empty :
    let s := atAcc .L 0 0#32 (withPrev 0b00#2)
    1 ≤ s.qdepth ∧ s.smpPhase = .acc .L 0 ∧ (s.ch .L).queue = [] := by decide

/-- `SbeginStartsAtLeft` and `AccessOutsideACallIsRefused`. -/
theorem test_witness_idle : (State.resetOf 4).smpPhase = .idle := rfl
theorem test_witness_OverlappingCallFaults : (atAcc .R 3 0#32 (State.resetOf 4)).smpPhase ≠ .idle := by decide
theorem test_witness_EmptyQueueGivesZeroDelta (c : Channel) :
    (atAcc c 0 0#32 (State.resetOf 4)).smpPhase = .acc c 0 ∧ ((atAcc c 0 0#32 (State.resetOf 4)).ch c).queue = [] := by
  cases c <;> exact ⟨rfl, rfl⟩
theorem test_witness_FirstAccessConsultsTheOldest :
    let s := atAcc .L 0 0#32 (st 2 (sampled [5#32] 3#32 true 0#32) .reset)
    s.smpPhase = .acc .L 0 ∧ (s.ch .L).queue = 5#32 :: [] ∧ s.qdepth ≠ 1 := by decide
theorem test_witness_DrainDiscardsWords :
    let s := atAcc .R 1 5#32 (st 3 .reset (sampled [6#32, 7#32] 3#32 true 0#32))
    s.smpPhase = .acc .R 1 ∧ 1 ≤ 1 ∧ (s.ch .R).queue = 6#32 :: [7#32] ∧ 1 + 1 ≠ s.qdepth := by decide
/-- The three ways a channel ends: queue found empty, bound reached inside the drain, bound reached at once. -/
theorem test_witness_LastAccessComputesTheDelta_empty :
    let s := atAcc .L 1 6#32 (State.resetOf 4)
    s.smpPhase = .acc .L 1 ∧ 1 ≤ 1 ∧ (s.ch .L).queue = [] ∧ (6#32 : Word) = s.smpCur := by decide
theorem test_witness_LastAccessComputesTheDelta_bound :
    let s := atAcc .R 3 6#32 (st 4 .reset (sampled [9#32] 3#32 true 0#32))
    s.smpPhase = .acc .R 3 ∧ 1 ≤ 3 ∧ (s.ch .R).queue ≠ [] ∧ 3 + 1 = s.qdepth ∧ (6#32 : Word) = s.smpCur := by decide
theorem test_witness_LastAccessComputesTheDelta_one :
    let s := atAcc .R 0 0#32 (st 1 .reset (sampled [9#32] 3#32 true 0#32))
    s.smpPhase = .acc .R 0 ∧ (s.ch .R).queue.head? = some 9#32 ∧ s.qdepth = 1 := by decide
/-- `SampleReturnsTheDeltas` and `SampleIsItsAccesses`, at the least `QDEPTH`, a word on R and none on L. -/
theorem test_witness_SampleReturnsTheDeltas : (withPrev 0b00#2).smpPhase = .idle ∧ 1 ≤ (withPrev 0b00#2).qdepth := by
  decide
theorem test_witness_SampleIsItsAccesses : (State.resetOf 4).smpPhase = .idle ∧ 1 ≤ (State.resetOf 4).qdepth := by
  decide
theorem test_witness_EveryAccessBringsTheEndNearer :
    let s := atAcc .R 3 0#32 (State.resetOf 4)
    s.smpPhase.inRange s.qdepth ∧ 1 ≤ s.qdepth ∧ s.smpPhase ≠ .idle :=
  ⟨show 3 < 4 by decide, by decide, by decide⟩
theorem test_witness_SecondCallReturnsZero :
    (withPrev 0b00#2).smpPhase = .idle ∧ 1 ≤ (withPrev 0b00#2).qdepth ∧ Memory.wf (withPrev 0b00#2) := by decide

/-- Decoder L and the sampler at work while decoder R is silent. -/
def silentRun : List Instr := [.dstep .L 0b10#2, .sample, .nochange1010 .L, .sbegin, .sstep]

theorem test_witness_SilentChannelReturnsZero :
    (State.resetOf 4).smpPhase = .idle ∧ ((State.resetOf 4).ch .R).queue = []
      ∧ (∀ i ∈ silentRun, i ≠ .reset ∧ ¬ isStepOf .R i) ∧ ∃ t, execAll silentRun (State.resetOf 4) = .next t := by
  refine ⟨rfl, rfl, ?_, _, rfl⟩
  intro i hi
  simp only [silentRun, List.mem_cons, List.not_mem_nil, or_false] at hi
  have none : ∀ j, j ∈ silentRun → ∀ k, decode (.key4 .R k) ≠ .ok j := by decide
  refine ⟨?_, ?_⟩
  · rcases hi with rfl | rfl | rfl | rfl | rfl <;> decide
  · rintro (⟨p, h⟩ | ⟨k, h⟩)
    · rcases hi with rfl | rfl | rfl | rfl | rfl <;> cases h
    · exact none i (by simpa only [silentRun, List.mem_cons, List.not_mem_nil, or_false] using hi) k h
theorem test_witness_RightIsTheNegationOfLeft : (State.resetOf 4).smpPhase = .idle
    ∧ (State.resetOf 4).left = (State.resetOf 4).right := by decide
/-- A call that fires the filter on R, and one with the filter already fired on L. -/
theorem test_witness_GlitchFilterFiresOnce :
    let s := st 4 (sampled [5#32] 3#32 true 0#32) (sampled [4#32] 0#32 false 0#32)
    (s.ch .L).firstNonzeroSeen = true ∧ (s.ch .R).firstNonzeroSeen = false
      ∧ passes (fun t => t.right.firstNonzeroSeen && t.right.previousSample != 0#32) (exec .sample s) = true := by decide
theorem test_witness_EachElementHasOneWriter :
    isStepOf .L (.dstep .L 0b10#2) ∧ isStepOf .R (.increment0100 .R) ∧ ¬ isStepOf .L .sstep
      ∧ ∃ t, exec (.dstep .L 0b10#2) (State.resetOf 1) = .next t := by
  have none : ∀ k, decode (.key4 .L k) ≠ .ok .sstep := by decide
  refine ⟨.inl ⟨_, rfl⟩, .inr ⟨0b0100#4, rfl⟩, ?_, _, rfl⟩
  rintro (⟨p, h⟩ | ⟨k, h⟩)
  · cases h
  · exact none k h
theorem test_witness_DeltasTelescope :
    let s := st 4 (sampled [5#32] 3#32 true 0#32) .reset
    s.smpPhase = .idle ∧ (s.ch .L).firstNonzeroSeen = true
      ∧ (∀ i ∈ [Instr.dstep .L 0b10#2, .sample], i ≠ .reset)
      ∧ ∃ t, execAll [.dstep .L 0b10#2, .sample] s = .next t ∧ t.smpPhase = .idle :=
  ⟨rfl, rfl, by decide, _, rfl, rfl⟩
/-- Not draining: no call in flight, or the first access of a channel still to come. -/
theorem test_witness_CurIsNeverReadBeforeWritten :
    draining (State.resetOf 4) = false ∧ draining (atAcc .R 0 0#32 (State.resetOf 4)) = false := by decide
theorem test_witness_SamplerNeverReadsTheDecoder :
    Instr.sstep = .sample ∨ Instr.sstep = .sbegin ∨ Instr.sstep = .sstep := by decide
theorem test_witness_FirstCallAfterResetConsultsZero : 1 ≤ 1 := Nat.le_refl 1

theorem test_witness_InvariantAtReset : 1 ≤ Config.defaultQdepth := by decide
/-- A state of the invariant from which a step answers a next state. -/
theorem test_witness_EveryStepKeepsTheInvariant :
    let s := { State.resetOf 4 with trace := [0x03#8] }
    MachineInv s ∧ ∃ t, step s = .next t := by
  refine ⟨⟨by decide, by decide, trivial, ?_, by decide, fun _ => rfl⟩, _, rfl⟩
  intro c _
  cases c <;> rfl
theorem test_witness_StepRunsTheDecodedEvent :
    ({ State.resetOf 4 with trace := [0x41#8] } : State).trace = 0x41#8 :: [] ∧ decode (.evt8 0x41#8) = .ok .sbegin
      ∧ decode (.evt8 0xFF#8) = .error (.malformedEvent 0xFF#8) := by decide
theorem test_witness_FreeEnvironmentNeverStalls : State.reset.trace = [] := rfl
theorem test_witness_TraceRunsAsItsEvents :
    (∀ i ∈ [Instr.dstep .L 0b10#2, .sample], i.isEvent = true)
      ∧ ({ State.resetOf 4 with trace := [0x02#8, 0x40#8, 0xFF#8] } : State).trace
          = [Instr.dstep .L 0b10#2, .sample].map byteOf ++ [0xFF#8] := by decide

theorem test_witness_ShorthandsExpandWhereTheyStand :
    let s := { State.resetOf 4 with trace := [0x03#8, 0x03#8, 0xFF#8] }
    s.trace = programBytes s [.d .L 0b11#2, .hold .L 1] ++ [0xFF#8] := by decide
theorem test_witness_ProgramKeysAreThoseOfTheRun :
    (∀ i ∈ mixedRun, i.isEvent = true) ∧ ∃ t, execAll mixedRun (State.resetOf 4) = .next t := ⟨by decide, _, rfl⟩
/-- A call in flight with nothing placed, and one with its access placed. -/
theorem test_witness_TheEnvironmentIsWeaklyFair :
    (atAcc .R 0 0#32 (State.resetOf 4)).smpPhase ≠ .idle
      ∧ ({ atAcc .L 0 0#32 (State.resetOf 4) with trace := [0x42#8] } : State).smpPhase ≠ .idle := by decide

/-- A fair run for ever: a call makes its last access, R's queue is filled, and then the two decoders take turns at
resting pins with full queues. -/
def fairStates : Nat → State
  | 0 => atAcc .R 0 0#32 (st 1 (sampled [0#32] 0#32 false 0#32) .reset)
  | 1 => { st 1 (sampled [0#32] 0#32 false 0#32) .reset with returned := [(0#32, 0#32)] }
  | _ + 2 =>
    { st 1 (sampled [0#32] 0#32 false 0#32) (sampled [0#32] 0#32 false 0#32) with returned := [(0#32, 0#32)] }

/-- The events of that run. -/
def fairEvents : Nat → Instr
  | 0 => .sstep
  | 1 => .dstep .R 0b00#2
  | n + 2 => .dstep (if n % 2 = 0 then .L else .R) 0b00#2

/-- `FairRunsEndEveryCall` and `FairRunsRefillEveryQueue`: a weakly fair run from a state of the invariant, with a call in
flight. -/
theorem test_witness_FairRuns :
    MachineInv (fairStates 0) ∧ InfiniteRun fairEvents fairStates ∧ WeaklyFair fairEvents fairStates
      ∧ (fairStates 0).smpPhase ≠ .idle := by
  refine ⟨⟨by decide, by decide, show 0 < 1 by decide, ?_, by decide, fun _ => rfl⟩, ⟨?_, ?_⟩, ⟨?_, ?_⟩, by decide⟩
  · intro c _
    cases c <;> rfl
  · rintro (_ | _ | n) <;> rfl
  · rintro (_ | _ | n)
    · rfl
    · rfl
    · have later : ∀ c : Channel, exec (.dstep c 0b00#2) (fairStates 2) = .next (fairStates 2) := by
        intro c; cases c <;> rfl
      exact later _
  · intro c n
    cases c
    · exact ⟨2 * n + 2, by omega, 0b00#2, by simp [fairEvents]⟩
    · exact ⟨2 * n + 3, by omega, 0b00#2, by simp only [fairEvents]; rw [if_neg (by omega)]⟩
  · rintro (_ | _ | n) h
    · exact ⟨0, by omega, .inl rfl⟩
    · exact absurd rfl h
    · exact absurd rfl h

end Sys2Proof.Tests
end

section
/-!
PROOFS. The decoder step and the sixteen keys (40_transition_table.md): what each action does to the counter word and to
its signed value, what a step at a key leaves in each element of its channel, and the statements about the key rows and
`DSTEP` that follow from them.
-/

namespace Sys2Proof.Machine

/-! ### The three actions on a counter word (R138 to R140) -/

@[simp] theorem add32_adj_noChange (w : Word) : add32 w (adj .noChange) = w := by simp [add32_eq]

@[simp] theorem add32_adj_increment (w : Word) : add32 w (adj .increment) = w + 1#32 := by simp [add32_eq]

@[simp] theorem add32_adj_decrement (w : Word) : add32 w (adj .decrement) = w - 1#32 := by
  rw [add32_eq, adj_decrement, BitVec.ofInt_neg, ← BitVec.sub_eq_add_neg]
  rfl

/-- The signed counter goes up by one, and from the largest value to the smallest (R139). -/
theorem s32_add_one (w : Word) : s32 (w + 1#32) = if s32 w = 2147483647 then -2147483648 else s32 w + 1 := by
  have hlow := BitVec.le_toInt w
  have hhigh := BitVec.toInt_lt (x := w)
  rw [s32_eq_toInt, s32_eq_toInt, BitVec.toInt_add, show (1#32).toInt = 1 from rfl]
  split
  next h => rw [h]; rfl
  next h => exact Int.bmod_eq_of_le (by omega) (by omega)

/-- The signed counter goes down by one, and from the smallest value to the largest (R140). -/
theorem s32_sub_one (w : Word) : s32 (w - 1#32) = if s32 w = -2147483648 then 2147483647 else s32 w - 1 := by
  have hlow := BitVec.le_toInt w
  have hhigh := BitVec.toInt_lt (x := w)
  rw [s32_eq_toInt, s32_eq_toInt, BitVec.toInt_sub, show (1#32).toInt = 1 from rfl]
  split
  next h => rw [h]; rfl
  next h => exact Int.bmod_eq_of_le (by omega) (by omega)

/-- The increment by complement, decrement, complement (R139). -/
theorem add_one_eq_not_not_sub_one (w : Word) : w + 1#32 = ~~~(~~~w - 1#32) := by bv_omega

/-! ### The elements of the channel after a step at a key (R170) -/

theorem runningCount_stepAtKey (c : Channel) (k : Key) (s : State) :
    ((stepAtKey c k s).ch c).runningCount = add32 (s.ch c).runningCount (adj (transitionTable k)) := by
  rw [stepAtKey_eq, ch_setCh_same]

/-- The word pushed is the updated counter (R173). -/
theorem queue_stepAtKey (c : Channel) (k : Key) (s : State) :
    ((stepAtKey c k s).ch c).queue =
      if (s.ch c).queue.length < s.qdepth then (s.ch c).queue ++ [((stepAtKey c k s).ch c).runningCount]
      else (s.ch c).queue := by
  rw [stepAtKey_eq, ch_setCh_same]

theorem prevPins_stepAtKey (c : Channel) (k : Key) (s : State) : ((stepAtKey c k s).ch c).prevPins = keyCur k := by
  rw [stepAtKey_eq, ch_setCh_same]

@[simp] theorem keyCur_append (prev cur : Pins) : keyCur (prev ++ cur) = cur := keyCur_keyOf prev cur

/-! ### The rows of the opcode table that are keys (R121 to R136) -/

theorem encode_decodeKey (c : Channel) (k : Key) : encode (decodeKey c k) = .key4 c k := by
  cases c <;> (revert k; decide)

/-- The row that a key selects does what the table's action for that key does to the counter. -/
theorem keyRow_decodeKey (prev cur : Pins) :
    KeyRow (decodeKey · (prev ++ cur)) prev cur (add32 · (adj (transitionTable (prev ++ cur)))) := by
  intro c
  refine ⟨encode_decodeKey c _, rfl, fun s _ => ⟨_, exec_decodeKey c _ s, ?_⟩⟩
  have hqueue := queue_stepAtKey c (prev ++ cur) s
  rw [runningCount_stepAtKey] at hqueue
  exact ⟨runningCount_stepAtKey c _ s, hqueue, by rw [prevPins_stepAtKey, keyCur_append], stepAtKey_frame c _ s⟩

/-- A row is known by its key; the effect of its action on a word is the row's effect on the counter. -/
theorem keyRow_of_action {row : Channel → Instr} {prev cur : Pins} {next : Word → Word} (a : Action)
    (hrow : ∀ c, decodeKey c (prev ++ cur) = row c) (hact : transitionTable (prev ++ cur) = a)
    (hnext : ∀ w, add32 w (adj a) = next w) : KeyRow row prev cur next := by
  have h := keyRow_decodeKey prev cur
  rwa [hact, funext hrow, funext hnext] at h

theorem keyRow_noChange {row : Channel → Instr} {prev cur : Pins}
    (hrow : ∀ c, decodeKey c (prev ++ cur) = row c) (hact : transitionTable (prev ++ cur) = .noChange) :
    KeyRow row prev cur id := keyRow_of_action .noChange hrow hact add32_adj_noChange

theorem keyRow_increment {row : Channel → Instr} {prev cur : Pins}
    (hrow : ∀ c, decodeKey c (prev ++ cur) = row c) (hact : transitionTable (prev ++ cur) = .increment) :
    KeyRow row prev cur (· + 1#32) := keyRow_of_action .increment hrow hact add32_adj_increment

theorem keyRow_decrement {row : Channel → Instr} {prev cur : Pins}
    (hrow : ∀ c, decodeKey c (prev ++ cur) = row c) (hact : transitionTable (prev ++ cur) = .decrement) :
    KeyRow row prev cur (· - 1#32) := keyRow_of_action .decrement hrow hact add32_adj_decrement

/-! ### The statements -/

/-- Settles O10: the step at the key `{prevPins, p}` by its action, from the laws of the three actions. -/
theorem dstepMovesTheSignedCounterByItsAction : Obligations.DstepMovesTheSignedCounterByItsAction := by
  intro c p s
  refine ⟨stepAtKey c ((s.ch c).prevPins ++ p) s, exec_dstep_eq c p s, ?_, queue_stepAtKey c _ s, ?_,
    stepAtKey_frame c _ s⟩
  · rw [runningCount_stepAtKey]
    cases transitionTable ((s.ch c).prevPins ++ p) with
    | noChange => exact add32_adj_noChange _
    | increment =>
      rw [add32_adj_increment]
      exact ⟨s32_add_one _, add_one_eq_not_not_sub_one _⟩
    | decrement =>
      rw [add32_adj_decrement]
      exact s32_sub_one _
  · rw [prevPins_stepAtKey, keyCur_append]

/-- Settles O5: the table's action at each of the twelve keys is `NoChange`. -/
theorem noChangeKeysKeepTheCounter : Obligations.NoChangeKeysKeepTheCounter := by
  refine ⟨?_, ?_, ?_, ?_, ?_, ?_, ?_, ?_, ?_, ?_, ?_, ?_⟩ <;> exact keyRow_noChange (fun _ => rfl) rfl

/-- Settles O6: the table's action at both keys is `Increment`. -/
theorem incrementKeysAddOne : Obligations.IncrementKeysAddOne :=
  ⟨keyRow_increment (fun _ => rfl) rfl, keyRow_increment (fun _ => rfl) rfl, rfl, rfl⟩

/-- Settles O7: the table's action at both keys is `Decrement`. -/
theorem decrementKeysSubtractOne : Obligations.DecrementKeysSubtractOne :=
  ⟨keyRow_decrement (fun _ => rfl) rfl, keyRow_decrement (fun _ => rfl) rfl, rfl, rfl⟩

end Sys2Proof.Machine
end

section
/-!
PROOFS. The output queue (41_output_queue.md): what a push does on a queue with room and on a full one, and the
statement about the decoder's push that follows.
-/

namespace Sys2Proof.Machine

/-! ### A push with room and on a full queue (R151) -/

theorem qpush_of_room {c : Channel} {s : State} (w : Word) (room : (s.ch c).queue.length < s.qdepth) :
    qpush c w s = s.setCh c { s.ch c with queue := (s.ch c).queue ++ [w] } := by
  rw [qpush_eq, if_pos room]

theorem qpush_of_full {c : Channel} {s : State} (w : Word) (full : ¬ (s.ch c).queue.length < s.qdepth) :
    qpush c w s = s := by
  rw [qpush_eq, if_neg full]
  exact setCh_fields s c

theorem queue_qpush (c : Channel) (w : Word) (s : State) :
    ((qpush c w s).ch c).queue =
      if (s.ch c).queue.length < s.qdepth then (s.ch c).queue ++ [w] else (s.ch c).queue := by
  rw [qpush_eq, ch_setCh_same]

/-- The queue after a step at a key is what a push of the updated counter makes of the queue before it (R173). -/
theorem queue_stepAtKey_eq_queue_qpush (c : Channel) (k : Key) (s : State) :
    ((stepAtKey c k s).ch c).queue = ((qpush c ((stepAtKey c k s).ch c).runningCount s).ch c).queue := by
  rw [queue_stepAtKey, queue_qpush]

/-! ### The statements -/

/-- Settles O16: a push by the room left, and the step at the key `{prevPins, p}`, which pushes its updated counter. -/
theorem fullQueueDropsTheNewest : Obligations.FullQueueDropsTheNewest := by
  refine ⟨fun _ w _ room => qpush_of_room w room, fun _ w _ full => qpush_of_full w full, fun c p s => ?_⟩
  exact ⟨stepAtKey c ((s.ch c).prevPins ++ p) s, exec_dstep_eq c p s, runningCount_stepAtKey c _ s,
    queue_stepAtKey_eq_queue_qpush c _ s⟩

end Sys2Proof.Machine
end

section
/-!
PROOFS. The decoder step in every state (42_edge_decoder.md): the counter as a number modulo 2^32, and the statement
about the whole result of `DSTEP`.
-/

namespace Sys2Proof.Machine

/-! ### Words as numbers modulo 2^32 (R11) -/

theorem toNat_wrap32 (n : Int) : ((wrap32 n).toNat : Int) = n % 2 ^ 32 := by
  have hnonneg : 0 ≤ n % 2 ^ 32 := Int.emod_nonneg n (by decide)
  rw [wrap32, BitVec.toNat_ofInt]
  exact Int.toNat_of_nonneg hnonneg

theorem toNat_add32 (w : Word) (k : Int) : ((add32 w k).toNat : Int) = (w.toNat + k) % 2 ^ 32 := toNat_wrap32 _

/-! ### The statement -/

/-- Settles O9: the next state is the step at the key `{prevPins, p}`; element by element, with its frame. -/
theorem dstepResult : Obligations.DstepResult := by
  intro c p s
  refine ⟨stepAtKey c ((s.ch c).prevPins ++ p) s, exec_dstep_eq c p s, ?counter, queue_stepAtKey c _ s, ?latch,
    stepAtKey_frame c _ s⟩
  case counter => rw [runningCount_stepAtKey, toNat_add32]
  case latch => rw [prevPins_stepAtKey, keyCur_append]

end Sys2Proof.Machine
end

section
/-!
PROOFS. Encoding (30_encoding.md): the fields of a decoder step's byte, decoding and encoding both ways, the well-formed
words, and the stored form of the table.
-/

namespace Sys2Proof

/-! ### The byte of a decoder step (R98) -/

theorem bitOfChannel_channelOfBit (b : Bool) : bitOfChannel (channelOfBit b) = b := by cases b <;> rfl

/-- A byte whose five high bits are zero is made of its channel bit and its reading. -/
theorem eventByteD_fields {b : Byte} (high : b.extractLsb' 3 5 = 0b00000#5) :
    eventByteD (channelOfBit (b.getLsbD 2)) (b.extractLsb' 0 2) = b := by
  have low : b.extractLsb' 2 1 = BitVec.ofBool (b.getLsbD 2) := by
    ext i hi
    obtain rfl : i = 0 := by omega
    simp
  rw [eventByteD, bitOfChannel_channelOfBit, ← high, ← low]
  ext i hi
  simp only [BitVec.getElem_append, BitVec.getElem_extractLsb']
  split_ifs <;> grind

/-- The eight bytes below 8 have five zero bits at the top. -/
theorem extractLsb'_high_of_lt {b : Byte} (h : b.toNat < 8) : b.extractLsb' 3 5 = 0b00000#5 := by
  apply BitVec.eq_of_toNat_eq
  rw [BitVec.extractLsb'_toNat, Nat.shiftRight_eq_div_pow, Nat.div_eq_of_lt h]
  rfl

/-! ### Decoding and encoding -/

theorem decode_encode (i : Instr) : decode (encode i) = .ok i := by
  cases i with
  | dstep c p => exact Machine.decode_byteOf (i := .dstep c p) rfl
  | _ => rfl

/-- Every instruction's word is well formed (R97, R98). -/
theorem encode_wf (i : Instr) : (encode i).wf = true := by
  cases i with
  | dstep c p => exact Laws.WordIsWellFormed.dstep c p
  | _ => rfl

/-- A byte that decodes is the byte of the event it decodes to. -/
theorem encode_of_decodeEvent {b : Byte} {i : Instr} (h : decodeEvent b = .ok i) : encode i = .evt8 b := by
  unfold decodeEvent at h
  split at h
  next high => cases h; exact congrArg Code.evt8 (eventByteD_fields high)
  next =>
    split at h
    next e => cases h; rw [e]; rfl
    next =>
      split at h
      next e => cases h; rw [e]; rfl
      next =>
        split at h
        next e => cases h; rw [e]; rfl
        next =>
          split at h
          next e => cases h; rw [e]; rfl
          next => cases h

theorem encode_of_decode {w : Code} {i : Instr} (h : decode w = .ok i) : encode i = w := by
  cases w with
  | key4 c k => cases h; exact Machine.encode_decodeKey c k
  | evt8 b => exact encode_of_decodeEvent h

/-- A byte of the spec's list decodes (R98). -/
theorem decode_of_wf {w : Code} (h : w.wf = true) : ∃ i, decode w = .ok i := by
  cases w with
  | key4 c k => exact ⟨_, rfl⟩
  | evt8 b =>
    simp only [Code.wf, Bool.or_eq_true, decide_eq_true_eq, beq_iff_eq] at h
    rcases h with (((low | rfl) | rfl) | rfl) | rfl
    · exact ⟨_, if_pos (extractLsb'_high_of_lt low)⟩
    · exact ⟨.sample, rfl⟩
    · exact ⟨.sbegin, rfl⟩
    · exact ⟨.sstep, rfl⟩
    · exact ⟨.reset, rfl⟩

/-- Settles O2: decoding undoes encoding, and a word that decodes is the word of what it decodes to. -/
theorem decodeEncodeAgree : Obligations.DecodeEncodeAgree := by
  refine ⟨decode_encode, fun _ _ => encode_of_decode, fun w => ⟨decode_of_wf, ?_⟩⟩
  rintro ⟨i, h⟩
  rw [← encode_of_decode h]
  exact encode_wf i

/-- Settles O1: each of the ten words is decoded. -/
theorem specWordsDecode : Obligations.SpecWordsDecode := by
  refine ⟨?_, ?_, ?_, ?_, ?_, ?_, ?_, ?_, ?_, ?_⟩ <;> rfl

/-- Settles O3: each of the sixteen entries of the constant is read. -/
theorem romHoldsTheTable : Obligations.RomHoldsTheTable := by
  refine ⟨by decide, rfl, ?_, rfl, rfl, rfl⟩
  intro a
  cases a <;> rfl

end Sys2Proof
end

section
/-!
PROOFS. The arithmetic primitives (00_scope.md R11): the range of a signed reading, and reading a word back as the
signed value it holds.
-/

namespace Sys2Proof.Machine

/-- A signed reading lies in the 32-bit signed range. -/
theorem s32_range (w : Word) : -2 ^ 31 ≤ s32 w ∧ s32 w ≤ 2 ^ 31 - 1 := by
  rw [s32_eq_toInt]
  exact ⟨BitVec.le_toInt w, Int.le_sub_one_of_lt BitVec.toInt_lt⟩

/-- The word of `n` read as signed is congruent to `n`. -/
theorem s32_wrap32_emod (n : Int) : s32 (wrap32 n) % 2 ^ 32 = n % 2 ^ 32 := by
  rw [s32_eq_toInt, wrap32, BitVec.toInt_ofInt]
  exact Int.bmod_emod

theorem s32_u32 {v : Int} (low : -2 ^ 31 ≤ v) (high : v ≤ 2 ^ 31 - 1) : s32 (u32 v) = v := by
  rw [s32_eq_toInt, u32, wrap32]
  exact BitVec.toInt_ofInt_eq_self (by decide) low (Int.lt_of_le_sub_one high)

theorem toNat_zext {k n : Nat} (v : BitVec k) (h : k ≤ n) : (zext n v).toNat = v.toNat := by
  rw [zext, BitVec.toNat_ofNat]
  exact Nat.mod_eq_of_lt (v.isLt.trans_le (Nat.pow_le_pow_right (by decide) h))

/-- Settles O4: each primitive by what its word is modulo 2^32 and the range of a signed reading. -/
theorem arithmeticPrimitives : Obligations.ArithmeticPrimitives := by
  refine ⟨toNat_wrap32, ?signed, fun w => ⟨(s32_range w).1, (s32_range w).2, u32_s32 w⟩, fun v => s32_u32,
    toNat_add32, fun a b => ⟨s32_wrap32_emod _, s32_range _⟩, fun a => ⟨s32_wrap32_emod _, s32_range _⟩, rfl,
    ⟨rfl, rfl, rfl, rfl⟩, fun k n v => toNat_zext v⟩
  case signed =>
    intro w
    unfold s32
    cases w.getLsbD 31 <;> rfl

end Sys2Proof.Machine
end

section
/-!
PROOFS. What an instruction that completes does, said once: the next state by the kind of instruction, the decoder whose
step it is, and what a queue access and a whole call do to each element and leave alone.
-/

namespace Sys2Proof.Machine

/-! ### The instructions that are steps of a decoder -/

theorem isStepOf_dstep (c : Channel) (p : Pins) : isStepOf c (.dstep c p) := .inl ⟨p, rfl⟩

theorem isStepOf_decodeKey (c : Channel) (k : Key) : isStepOf c (decodeKey c k) := .inr ⟨k, rfl⟩

/-- A step of a decoder is its event or has the word of a key at its port. -/
theorem isStepOf_word {c : Channel} {i : Instr} (h : isStepOf c i) :
    (∃ p, i = .dstep c p) ∨ ∃ k, encode i = .key4 c k :=
  h.imp_right fun ⟨k, hk⟩ => ⟨k, encode_of_decode hk⟩

theorem isStepOf_unique {c d : Channel} {i : Instr} (hc : isStepOf c i) (hd : isStepOf d i) : c = d := by
  rcases isStepOf_word hc with ⟨p, rfl⟩ | ⟨k, hk⟩
  · rcases isStepOf_word hd with ⟨q, hq⟩ | ⟨k, hk⟩
    · cases hq; rfl
    · cases hk
  · rcases isStepOf_word hd with ⟨q, rfl⟩ | ⟨l, hl⟩
    · cases hk
    · cases hk.symm.trans hl; rfl

theorem not_isStepOf_sample (c : Channel) : ¬ isStepOf c .sample := by
  intro h; rcases isStepOf_word h with ⟨_, e⟩ | ⟨_, e⟩ <;> cases e

theorem not_isStepOf_sbegin (c : Channel) : ¬ isStepOf c .sbegin := by
  intro h; rcases isStepOf_word h with ⟨_, e⟩ | ⟨_, e⟩ <;> cases e

theorem not_isStepOf_sstep (c : Channel) : ¬ isStepOf c .sstep := by
  intro h; rcases isStepOf_word h with ⟨_, e⟩ | ⟨_, e⟩ <;> cases e

theorem not_isStepOf_reset (c : Channel) : ¬ isStepOf c .reset := by
  intro h; rcases isStepOf_word h with ⟨_, e⟩ | ⟨_, e⟩ <;> cases e

/-- An event that is a decoder's step is `DSTEP`: a key is no event of a trace (R98). -/
theorem eq_dstep_of_isEvent {c : Channel} {i : Instr} (h : isStepOf c i) (event : i.isEvent = true) :
    ∃ p, i = .dstep c p := by
  rcases h with h | ⟨k, h⟩
  · exact h
  · cases h
    have noEvent : (decodeKey c k).isEvent = false := by revert k; cases c <;> decide
    rw [noEvent] at event; cases event

/-! ### The next state by the kind of instruction -/

/-- The state after a whole call (R190, R203). -/
def sampledState (s : State) : State := returnPair (sampleChannel .R (sampleChannel .L s))

/-- The state after the event `RESET` (R260). -/
def clearedState (s : State) : State :=
  { s with
    left := clearedChannel
    right := clearedChannel
    smpPhase := .idle
    smpCur := Config.freeCur s.drawn
    outL := 0#32
    outR := 0#32
    drawn := s.drawn + 1 }

theorem exec_reset_eq (s : State) : exec .reset s = .next (clearedState s) := rfl

theorem exec_sample_idle {s : State} (idle : s.smpPhase = .idle) : exec .sample s = .next (sampledState s) := by
  rw [exec_sample_eq, busy_of_idle idle]; rfl

theorem exec_sample_busy {s : State} (call : s.smpPhase ≠ .idle) : exec .sample s = .fault .samplerReentry := by
  rw [exec_sample_eq, if_pos ((busy_iff s).2 call)]

theorem exec_sbegin_idle {s : State} (idle : s.smpPhase = .idle) :
    exec .sbegin s = .next { s with smpPhase := .acc .L 0 } := by
  rw [exec_sbegin_eq, busy_of_idle idle]; rfl

theorem exec_sbegin_busy {s : State} (call : s.smpPhase ≠ .idle) : exec .sbegin s = .fault .samplerReentry := by
  rw [exec_sbegin_eq, if_pos ((busy_iff s).2 call)]

theorem exec_sstep_idle {s : State} (idle : s.smpPhase = .idle) : exec .sstep s = .refused .sstepOutsideCall := by
  show execSstep s = _
  unfold execSstep
  rw [idle]

/-- What an instruction that completes in `s` makes of `s`: a step at some key (for `DSTEP` the key presented), a whole
call, the beginning of a call, an access of the call in flight, or the reset. -/
inductive Completes (s : State) : Instr → State → Prop where
  | decoder {c : Channel} {k : Key} {i : Instr} (own : isStepOf c i)
      (key : ∀ p, i = .dstep c p → k = presentedKey c p s) : Completes s i (stepAtKey c k s)
  | sample (idle : s.smpPhase = .idle) : Completes s .sample (sampledState s)
  | sbegin (idle : s.smpPhase = .idle) : Completes s .sbegin { s with smpPhase := .acc .L 0 }
  | sstep {c : Channel} {n : Nat} (call : s.smpPhase = .acc c n) : Completes s .sstep (accessQueue c n s)
  | reset : Completes s .reset (clearedState s)

/-- Every instruction that answers a next state does one of these. -/
theorem completes_of_exec {i : Instr} {s t : State} (h : exec i s = .next t) : Completes s i t := by
  rcases instr_cases i with ⟨c, k, rfl⟩ | ⟨c, p, rfl⟩ | rfl | rfl | rfl | rfl
  · rw [exec_decodeKey] at h
    cases h
    refine .decoder (isStepOf_decodeKey c k) fun p e => ?_
    have word := encode_decodeKey c k
    rw [e] at word
    cases word
  · rw [exec_dstep_eq] at h
    cases h
    exact .decoder (isStepOf_dstep c p) fun q e => by cases e; rfl
  · by_cases idle : s.smpPhase = .idle
    · rw [exec_sample_idle idle] at h; cases h; exact .sample idle
    · rw [exec_sample_busy idle] at h; cases h
  · by_cases idle : s.smpPhase = .idle
    · rw [exec_sbegin_idle idle] at h; cases h; exact .sbegin idle
    · rw [exec_sbegin_busy idle] at h; cases h
  · cases phase : s.smpPhase with
    | idle => rw [exec_sstep_idle phase] at h; cases h
    | acc c n => rw [exec_sstep_acc phase] at h; cases h; exact .sstep phase
  · cases h; exact .reset

/-! ### A decoder step on the other channel -/

theorem eq_other_of_ne {c d : Channel} (h : d ≠ c) : d = c.other := by
  cases c <;> cases d <;> first | rfl | exact absurd rfl h

theorem stepAtKey_ch_of_ne {c d : Channel} (k : Key) (s : State) (h : d ≠ c) : (stepAtKey c k s).ch d = s.ch d := by
  rw [stepAtKey_eq, ch_setCh_ne s _ h]

/-- The sampler's registers of either channel are not the decoder's to write (R34). -/
theorem stepAtKey_sampler_registers (c d : Channel) (k : Key) (s : State) :
    ((stepAtKey c k s).ch d).previousSample = (s.ch d).previousSample
      ∧ ((stepAtKey c k s).ch d).firstNonzeroSeen = (s.ch d).firstNonzeroSeen
      ∧ ((stepAtKey c k s).ch d).lastDelta = (s.ch d).lastDelta := by
  by_cases h : d = c
  · subst h
    have frame := stepAtKey_frame d k s
    exact ⟨frame.previousSample, frame.firstNonzeroSeen, frame.lastDelta⟩
  · rw [stepAtKey_ch_of_ne k s h]
    exact ⟨rfl, rfl, rfl⟩

theorem smpPhase_stepAtKey (c : Channel) (k : Key) (s : State) : (stepAtKey c k s).smpPhase = s.smpPhase :=
  (stepAtKey_frame c k s).smpPhase

theorem qdepth_stepAtKey (c : Channel) (k : Key) (s : State) : (stepAtKey c k s).qdepth = s.qdepth :=
  (stepAtKey_frame c k s).qdepth

/-! ### A queue access (R192) -/

/-- A channel after steps 3 to 5 with the value `v` (R196 to R198), `q` being left of its queue. -/
def consultedChannel (x : ChannelState) (v : Word) (q : List Word) : ChannelState :=
  { x with
    queue := q
    lastDelta := consultedDelta x.previousSample x.firstNonzeroSeen v
    firstNonzeroSeen := glitchNext x.firstNonzeroSeen v
    previousSample := v }

/-- `SMP.cur` after the access at `ACC(c, n)`: the first access consults the word it finds. -/
def accessedCur (n : Nat) (queue : List Word) (cur : Word) : Word := if n = 0 then queue.head?.getD cur else cur

theorem accessedCur_nil (n : Nat) (cur : Word) : accessedCur n [] cur = cur := ite_self cur

/-- The channel after its access at `ACC(c, n)`, `cur` being `SMP.cur` before. -/
def accessedChannel (n depth : Nat) (cur : Word) (x : ChannelState) : ChannelState :=
  match x.queue with
  | [] => if n = 0 then { x with lastDelta := 0#32 } else consultedChannel x cur x.queue
  | w :: rest =>
    if n + 1 = depth then consultedChannel x (if n = 0 then w else cur) rest else { x with queue := rest }

theorem accessedChannel_nil {x : ChannelState} (empty : x.queue = []) (n depth : Nat) (cur : Word) :
    accessedChannel n depth cur x
      = if n = 0 then { x with lastDelta := 0#32 } else consultedChannel x cur x.queue := by
  unfold accessedChannel
  split
  · rfl
  · simp_all

theorem accessedChannel_cons {x : ChannelState} {w : Word} {rest : List Word} (queue : x.queue = w :: rest)
    (n depth : Nat) (cur : Word) :
    accessedChannel n depth cur x
      = if n + 1 = depth then consultedChannel x (if n = 0 then w else cur) rest else { x with queue := rest } := by
  unfold accessedChannel
  split <;> simp_all

/-- The state after the access, the phase and the return aside. -/
def accessedState (c : Channel) (n : Nat) (s : State) : State :=
  State.setCh { s with smpCur := accessedCur n (s.ch c).queue s.smpCur } c
    (accessedChannel n s.qdepth s.smpCur (s.ch c))

/-- Everything an access does: the channel is left where its queue is empty or the bound is reached. -/
theorem accessQueue_eq (c : Channel) (n : Nat) (s : State) :
    accessQueue c n s =
      if (s.ch c).queue = [] ∨ n + 1 = s.qdepth then leaveChannel c (accessedState c n s)
      else { accessedState c n s with smpPhase := .acc c (n + 1) } := by
  cases queue : (s.ch c).queue with
  | nil =>
    have cur : accessedCur n (s.ch c).queue s.smpCur = s.smpCur := by rw [queue, accessedCur_nil]
    rw [if_pos (.inl rfl), accessedState, accessedChannel_nil queue, cur]
    by_cases first : n = 0
    · subst first
      rw [accessQueue_first_nil c s queue]
      rfl
    · rw [accessQueue_nil c n s first queue, if_neg first]
      rfl
  | cons w rest =>
    rw [accessQueue_cons c n s w rest queue, accessedState, accessedChannel_cons queue, queue]
    by_cases last : n + 1 = s.qdepth
    · simp only [last, if_true, or_true]
      cases c <;> rfl
    · simp only [last, if_false, or_false, reduceCtorEq]
      cases c <;> rfl

theorem accessQueue_ch_of_ne {c d : Channel} (n : Nat) (s : State) (h : d ≠ c) :
    (accessQueue c n s).ch d = s.ch d := by
  rcases accessQueue_cases c n s with ⟨-, -, e⟩ | ⟨v, q, -, e⟩ | ⟨w, q, -, -, e⟩ <;>
    simp [e, leaveChannel_ch, ch_setCh_ne _ _ h]

/-- One word at most leaves the queue. -/
theorem queue_accessQueue (c : Channel) (n : Nat) (s : State) :
    ((accessQueue c n s).ch c).queue = (s.ch c).queue.tail := by
  rcases accessQueue_cases c n s with ⟨hq, -, e⟩ | ⟨v, q, ⟨hq, -, -, rfl⟩ | ⟨w, hq, -⟩, e⟩ | ⟨w, q, hq, -, e⟩ <;>
    simp [e, hq, leaveChannel_ch]

theorem accessQueue_frame (c : Channel) (n : Nat) (s : State) : SamplerFrame s (accessQueue c n s) := by
  have channel : ∀ d, ((accessQueue c n s).ch d).runningCount = (s.ch d).runningCount
      ∧ ((accessQueue c n s).ch d).prevPins = (s.ch d).prevPins := by
    intro d
    by_cases h : d = c
    · subst h
      rcases accessQueue_cases d n s with ⟨-, -, e⟩ | ⟨v, q, -, e⟩ | ⟨w, q, -, -, e⟩ <;> simp [e, leaveChannel_ch]
    · rw [accessQueue_ch_of_ne n s h]
      exact ⟨rfl, rfl⟩
  obtain ⟨depth, trace, drawn⟩ : (accessQueue c n s).qdepth = s.qdepth ∧ (accessQueue c n s).trace = s.trace
      ∧ (accessQueue c n s).drawn = s.drawn := by
    rcases accessQueue_cases c n s with ⟨-, -, e⟩ | ⟨v, q, -, e⟩ | ⟨w, q, -, -, e⟩ <;> simp [e, leaveChannel_others]
  exact ⟨fun d => (channel d).1, fun d => (channel d).2, depth, trace, drawn⟩

/-! ### A whole call (R190) -/

/-- A channel after its sampling (R190, R199). -/
def sampledChannel (depth : Nat) (x : ChannelState) : ChannelState :=
  match x.queue with
  | [] => { x with lastDelta := 0#32 }
  | w :: rest => consultedChannel x w (rest.drop (depth - 1))

theorem sampledChannel_nil {x : ChannelState} (empty : x.queue = []) (depth : Nat) :
    sampledChannel depth x = { x with lastDelta := 0#32 } := by
  unfold sampledChannel
  split
  · rfl
  · simp_all

theorem sampledChannel_cons {x : ChannelState} {w : Word} {rest : List Word} (queue : x.queue = w :: rest)
    (depth : Nat) : sampledChannel depth x = consultedChannel x w (rest.drop (depth - 1)) := by
  unfold sampledChannel
  split <;> simp_all

/-- Everything the sampling of a channel does. -/
theorem sampleChannel_eq (c : Channel) (s : State) :
    sampleChannel c s =
      State.setCh { s with smpCur := (s.ch c).queue.head?.getD s.smpCur } c (sampledChannel s.qdepth (s.ch c)) := by
  cases queue : (s.ch c).queue with
  | nil => rw [sampleChannel_nil c s queue, sampledChannel_nil queue]; rfl
  | cons w rest => rw [sampleChannel_cons c s w rest queue, sampledChannel_cons queue]; rfl

theorem sampleChannel_ch_of_ne {c d : Channel} (s : State) (h : d ≠ c) : (sampleChannel c s).ch d = s.ch d := by
  obtain ⟨-, -, -, -, other⟩ := sampleChannel_channels c s
  rw [eq_other_of_ne h, other]

theorem qdepth_sampleChannel (c : Channel) (s : State) : (sampleChannel c s).qdepth = s.qdepth := by
  obtain ⟨-, -, -, -, depth, -⟩ := sampleChannel_others c s
  exact depth

theorem returned_sampleChannel (c : Channel) (s : State) : (sampleChannel c s).returned = s.returned := by
  obtain ⟨-, -, -, -, -, -, returned, -⟩ := sampleChannel_others c s
  exact returned

theorem smpCur_sampleChannel (c : Channel) (s : State) :
    (sampleChannel c s).smpCur = (s.ch c).queue.head?.getD s.smpCur := by
  obtain ⟨cur, -⟩ := sampleChannel_others c s
  exact cur

/-- What a call makes of a channel is its sampling. -/
theorem sampledState_ch (c : Channel) (s : State) : (sampledState s).ch c = sampledChannel s.qdepth (s.ch c) := by
  unfold sampledState
  rw [sampleChannel_eq, sampleChannel_eq]
  cases c <;> rfl

/-- Each channel's registers are the table's of R199 for the head of its queue, and `QDEPTH` words leave the queue. -/
theorem sampledState_channels (c : Channel) (s : State) :
    sampledRegisters (s.ch c) (s.ch c).queue.head? ((sampledState s).ch c)
      ∧ ((sampledState s).ch c).queue = (s.ch c).queue.tail.drop (s.qdepth - 1)
      ∧ ((sampledState s).ch c).runningCount = (s.ch c).runningCount
      ∧ ((sampledState s).ch c).prevPins = (s.ch c).prevPins := by
  have same : (sampledState s).ch c = (sampleChannel c s).ch c := by
    rw [sampledState_ch, sampleChannel_eq, ch_setCh_same]
  obtain ⟨registers, queue, counter, pins, -⟩ := sampleChannel_channels c s
  rw [same]
  exact ⟨registers, queue, counter, pins⟩

theorem smpCur_sampledState (s : State) :
    (sampledState s).smpCur = (s.right.queue.head?.or s.left.queue.head?).getD s.smpCur := by
  show (sampleChannel .R (sampleChannel .L s)).smpCur = _
  rw [smpCur_sampleChannel, smpCur_sampleChannel, sampleChannel_ch_of_ne (c := .L) (d := .R) s nofun]
  cases h : s.right.queue.head? <;> simp [h]

theorem sampledState_frame (s : State) : SamplerFrame s (sampledState s) := by
  obtain ⟨-, -, -, -, depthL, traceL, -, drawnL⟩ := sampleChannel_others .L s
  obtain ⟨-, -, -, -, depthR, traceR, -, drawnR⟩ := sampleChannel_others .R (sampleChannel .L s)
  refine ⟨fun c => ?_, fun c => ?_, depthR.trans depthL, traceR.trans traceL, drawnR.trans drawnL⟩ <;>
    obtain ⟨-, -, counter, pins⟩ := sampledState_channels c s
  · exact counter
  · exact pins

/-- A call returns the left delta and the negated right delta, and holds the pair (R203, R39). -/
theorem sampledState_returned (s : State) :
    Returned (sampledState s).left.lastDelta (-(sampledState s).right.lastDelta) s (sampledState s) := by
  unfold sampledState
  rw [returnPair_eq]
  refine ⟨rfl, rfl, rfl, ?_⟩
  simp only [returned_sampleChannel]

end Sys2Proof.Machine
end

section
/-!
PROOFS. The invariant of the reachable states (10_state.md R36): it holds at reset, and every event that completes keeps
it, a whole step too.
-/

namespace Sys2Proof.Machine

/-! ### An unfired filter means that every value consulted was zero (R36 (b)) -/

/-- A channel whose filter has not fired has consulted nothing but zeros. -/
def ChannelState.quiet (x : ChannelState) : Prop := x.firstNonzeroSeen = false → x.previousSample = 0#32

/-- Consulting a value keeps it: a nonzero value fires the filter (R197). -/
theorem quiet_of_sampledRegisters {x y : ChannelState} {first : Option Word} (h : sampledRegisters x first y)
    (quiet : x.quiet) : y.quiet := by
  intro unfired
  cases first with
  | none =>
    obtain ⟨sample, seen, -⟩ := h
    rw [sample]
    exact quiet (seen ▸ unfired)
  | some v =>
    obtain ⟨sample, seen, -⟩ := h
    rw [sample]
    rw [unfired] at seen
    simp only [ne_eq, decide_not, Bool.false_eq, Bool.or_eq_false_iff, Bool.not_eq_eq_eq_not, Bool.not_false,
      decide_eq_true_eq] at seen
    exact seen.2

/-! ### The parts of an access -/

/-- A channel's end keeps the invariant, its phase aside: on to `ACC(R, 0)`, or the pair is written to the output. -/
theorem leaveChannel_keeps_invariant (c : Channel) {s : State} (pos : 1 ≤ s.qdepth) (queues : Memory.wf s)
    (quiet : ∀ d, (s.ch d).quiet) (held : c = .L → s.outR = negated s.right.lastDelta) :
    MachineInv (leaveChannel c s) := by
  cases c with
  | L => exact ⟨pos, queues, pos, quiet, held rfl, fun h => absurd rfl (h 0)⟩
  | R => exact ⟨pos, queues, trivial, fun d => by rw [leaveChannel_ch]; exact quiet d, rfl, fun _ => rfl⟩

/-- What holds of every channel holds after one channel is replaced by one of which it holds. -/
theorem forall_ch_setCh {P : ChannelState → Prop} {s : State} (h : ∀ d, P (s.ch d)) (c : Channel) {x : ChannelState}
    (hx : P x) (d : Channel) : P ((s.setCh c x).ch d) := by
  by_cases e : d = c
  · subst e; rwa [ch_setCh_same]
  · rw [ch_setCh_ne s x e]; exact h d

theorem accessQueue_keeps_invariant {c : Channel} {n : Nat} {s : State} (call : s.smpPhase = .acc c n)
    (inv : MachineInv s) : MachineInv (accessQueue c n s) := by
  obtain ⟨pos, queues, phase, quiet, heldRight, heldLeft⟩ := inv
  have fits := (Memory.wf_iff s).1 queues c
  have notRight : c = .L → ∀ x, (s.setCh c x).outR = negated (s.setCh c x).right.lastDelta := by
    rintro rfl x; exact heldRight
  rcases accessQueue_cases c n s with ⟨hq, -, e⟩ | ⟨v, q, hq, e⟩ | ⟨w, q, hq, more, e⟩ <;> rw [e]
  · refine leaveChannel_keeps_invariant c ?_ (setCh_keeps_wf c _ s fits queues)
      (forall_ch_setCh quiet c (quiet c)) fun h => notRight h _
    rwa [qdepth_setCh]
  · have shorter : q.length ≤ s.qdepth := by
      rcases hq with ⟨-, -, -, rfl⟩ | ⟨w, hq, -⟩
      · exact Nat.zero_le _
      · rw [hq, List.length_cons] at fits; omega
    refine leaveChannel_keeps_invariant c ?_ (setCh_keeps_wf c _ _ shorter queues)
      (forall_ch_setCh (P := ChannelState.quiet) (s := { s with smpCur := v }) ?_ c
        (quiet_of_sampledRegisters (sampledRegisters_consulted (s.ch c) v q) (quiet c))) ?_
    · rwa [qdepth_setCh]
    · intro d; rw [ch_of_other_fields]; exact quiet d
    · rintro rfl; exact heldRight
  · have shorter : q.length ≤ s.qdepth := by rw [hq, List.length_cons] at fits; omega
    rw [call] at phase
    change n < s.qdepth at phase
    have inRange : n + 1 < s.qdepth := by omega
    cases c with
    | L =>
      refine ⟨pos, ⟨shorter, queues.2⟩, inRange, ?_, heldRight, fun _ => heldLeft (by rw [call]; nofun)⟩
      exact fun d => match d with | .L => quiet .L | .R => quiet .R
    | R =>
      refine ⟨pos, ⟨queues.1, shorter⟩, inRange, ?_, heldRight, fun h => absurd rfl (h (n + 1))⟩
      exact fun d => match d with | .L => quiet .L | .R => quiet .R

/-! ### Every event keeps the invariant -/

theorem stepAtKey_keeps_invariant (c : Channel) (k : Key) {s : State} (inv : MachineInv s) :
    MachineInv (stepAtKey c k s) := by
  obtain ⟨pos, queues, phase, quiet, heldRight, heldLeft⟩ := inv
  have frame := stepAtKey_frame c k s
  have delta : ∀ d, ((stepAtKey c k s).ch d).lastDelta = (s.ch d).lastDelta := fun d => by
    obtain ⟨-, -, same⟩ := stepAtKey_sampler_registers c d k s
    exact same
  refine ⟨?_, stepAtKey_keeps_wf c k s queues, ?_, ?_, ?_, ?_⟩
  · rwa [frame.qdepth]
  · rwa [frame.smpPhase, frame.qdepth]
  · intro d
    obtain ⟨sample, seen, -⟩ := stepAtKey_sampler_registers c d k s
    rw [sample, seen]
    exact quiet d
  · rw [frame.outR, heldRight, ← ch_R, ← ch_R, delta]
  · rw [frame.outL, frame.smpPhase, ← ch_L, delta]
    exact heldLeft

theorem sampledState_keeps_invariant {s : State} (inv : MachineInv s) : MachineInv (sampledState s) := by
  have frame := sampledState_frame s
  have back := sampledState_returned s
  refine ⟨?_, ?_, ?_, ?_, ?_, fun _ => back.outL⟩
  · rw [frame.qdepth]; exact inv.qdepth_pos
  · exact sampleChannel_keeps_wf .R _ (sampleChannel_keeps_wf .L s inv.queues)
  · rw [back.idle]; trivial
  · intro c
    obtain ⟨registers, -⟩ := sampledState_channels c s
    exact quiet_of_sampledRegisters registers (inv.quiet c)
  · rw [back.outR, negated_eq]

/-- A block whose channels and outputs are at their reset values and that has no call in flight meets the invariant. -/
theorem invariant_of_cleared {s : State} (pos : 1 ≤ s.qdepth) (ch : ∀ c, s.ch c = clearedChannel)
    (idle : s.smpPhase = .idle) (outL : s.outL = 0#32) (outR : s.outR = 0#32) : MachineInv s := by
  refine ⟨pos, (Memory.wf_iff s).2 fun c => ?_, by rw [idle]; trivial, fun c _ => by rw [ch]; rfl, ?_, fun _ => ?_⟩
  · rw [ch]; exact Nat.zero_le _
  · rw [outR, ← ch_R, ch]; rfl
  · rw [outL, ← ch_L, ch]; rfl

theorem exec_keeps_invariant {i : Instr} {s t : State} (inv : MachineInv s) (h : exec i s = .next t) :
    MachineInv t := by
  cases completes_of_exec h with
  | decoder own key => exact stepAtKey_keeps_invariant _ _ inv
  | sample idle => exact sampledState_keeps_invariant inv
  | sbegin idle =>
    refine ⟨inv.qdepth_pos, inv.queues, inv.qdepth_pos, ?_, inv.heldRight, fun _ => inv.heldLeft ?_⟩
    · intro c; rw [ch_of_other_fields]; exact inv.quiet c
    · rw [idle]; nofun
  | sstep call => exact accessQueue_keeps_invariant call inv
  | reset => exact invariant_of_cleared inv.qdepth_pos (fun c => by cases c <;> rfl) rfl rfl rfl

theorem consumeEvent_keeps_invariant {s : State} (inv : MachineInv s) : MachineInv (consumeEvent s) := by
  obtain ⟨pos, queues, phase, quiet, heldRight, heldLeft⟩ := inv
  unfold consumeEvent
  split <;>
    exact ⟨pos, queues, phase, fun c => by rw [ch_of_other_fields]; exact quiet c, heldRight, heldLeft⟩

/-- A step that answers a next state executed some event on the state without it. -/
theorem exec_of_step {s t : State} (h : step s = .next t) :
    ∃ i, nextEvent s = .ok i ∧ exec i (consumeEvent s) = .next t := by
  unfold step at h
  split at h
  next i e => exact ⟨i, e, h⟩
  next => cases h

/-- Settles O43: the event the step executes keeps the invariant. -/
theorem everyStepKeepsTheInvariant : Obligations.EveryStepKeepsTheInvariant := by
  intro s t inv h
  obtain ⟨i, -, run⟩ := exec_of_step h
  exact exec_keeps_invariant (consumeEvent_keeps_invariant inv) run

/-- Settles O42: every element is at its reset value. -/
theorem invariantAtReset : Obligations.InvariantAtReset := by
  have atReset : ∀ q : Nat, 1 ≤ q → MachineInv (State.resetOf q) := fun q pos =>
    invariant_of_cleared pos (fun c => by cases c <;> rfl) rfl rfl rfl
  exact ⟨atReset, atReset _ (by decide)⟩

end Sys2Proof.Machine
end

section
/-!
PROOFS. The decoder's statements (42_edge_decoder.md): the row a step's key selects, rows that never count, pin
sequences, the counter along a run, and the repeated reading.
-/

namespace Sys2Proof.Machine

/-! ### A step is the row of its key -/

/-- Settles O11: the row is the one the key decodes to. -/
theorem dstepIsTheRowOfItsKey : Obligations.DstepIsTheRowOfItsKey :=
  fun c p s => ⟨decodeKey c (presentedKey c p s), rfl, (exec_decodeKey c (presentedKey c p s) s).symm⟩

/-- The previous reading of its own channel is not read by a step at a key, which writes it. -/
theorem stepAtKey_ignores_prevPins (c : Channel) (k : Key) (s : State) (v : Pins) :
    stepAtKey c k (s.setCh c { s.ch c with prevPins := v }) = stepAtKey c k s := by
  simp [stepAtKey_eq]

/-- Settles O8: the row executes the step at its key, which does not read the previous reading. -/
theorem keyRowsIgnoreThePreviousReading : Obligations.KeyRowsIgnoreThePreviousReading := by
  intro c k i s v h
  cases h
  refine ⟨stepAtKey c k s, exec_decodeKey c k s, ?_, prevPins_stepAtKey c k s⟩
  rw [exec_decodeKey, stepAtKey_ignores_prevPins]

/-! ### Rows that never count (R137) -/

theorem transitionTable_of_prev_00_or_11 {r : Pins} (h : r = 0b00#2 ∨ r = 0b11#2) (p : Pins) :
    transitionTable (keyOf r p) = .noChange := by
  rcases h with rfl | rfl <;> (revert p; decide)

/-- The same reading again is no edge. -/
theorem transitionTable_same (p : Pins) : transitionTable (keyOf p p) = .noChange := by revert p; decide

theorem runningCount_stepAtKey_of_noChange {c : Channel} {k : Key} (h : transitionTable k = .noChange) (s : State) :
    ((stepAtKey c k s).ch c).runningCount = (s.ch c).runningCount := by
  rw [runningCount_stepAtKey, h, add32_adj_noChange]

/-- Settles O14: rows `00` and `11`, and the first of them at the reset values. -/
theorem firstStepNeverCounts : Obligations.FirstStepNeverCounts := by
  refine ⟨fun c p s h => ?_, fun c p q pos => ?_⟩
  · exact ⟨_, exec_dstep_eq c p s, runningCount_stepAtKey_of_noChange (transitionTable_of_prev_00_or_11 h p) s⟩
  · refine ⟨_, exec_dstep_eq c p _, ?_⟩
    have counter := runningCount_stepAtKey_of_noChange (c := c) (k := presentedKey c p (State.resetOf q))
      (transitionTable_of_prev_00_or_11 (.inl (by rw [resetOf_ch]; rfl)) p) (State.resetOf q)
    rw [queue_stepAtKey, counter, resetOf_ch]
    exact if_pos pos

/-! ### The counter along a run (R177) -/

/-- Adding twice modulo 2^32 is adding the sum. -/
theorem wrap32_toNat_add32 (w : Word) (k m : Int) : wrap32 ((add32 w k).toNat + m) = wrap32 (w.toNat + (k + m)) := by
  show add32 (add32 w k) m = add32 w (k + m)
  simp only [add32_eq, BitVec.ofInt_add, BitVec.add_assoc]

@[simp] theorem add32_zero (w : Word) : add32 w 0 = w := by simp [add32_eq]

theorem readings_cons_of_not_step {c : Channel} {i : Instr} (h : ¬ isStepOf c i) (es : List Instr) :
    readings c (i :: es) = readings c es := by
  cases i with
  | dstep d p =>
    have ne : d ≠ c := by rintro rfl; exact h (isStepOf_dstep d p)
    rw [readings, if_neg ne]
  | _ => rfl

theorem readings_cons_dstep (c : Channel) (p : Pins) (es : List Instr) :
    readings c (.dstep c p :: es) = p :: readings c es := if_pos rfl

/-- What is no step of a channel's decoder, and no reset, leaves its counter and its previous reading (R34). -/
theorem exec_keeps_decoder_registers {i : Instr} {s t : State} {c : Channel} (run : exec i s = .next t)
    (noReset : i ≠ .reset) (other : ¬ isStepOf c i) :
    (t.ch c).runningCount = (s.ch c).runningCount ∧ (t.ch c).prevPins = (s.ch c).prevPins := by
  cases completes_of_exec run with
  | decoder own key =>
    rw [stepAtKey_ch_of_ne _ s (by rintro rfl; exact other own)]
    exact ⟨rfl, rfl⟩
  | sample idle => exact ⟨(sampledState_frame s).runningCount c, (sampledState_frame s).prevPins c⟩
  | sbegin idle => rw [ch_of_other_fields]; exact ⟨rfl, rfl⟩
  | sstep call => exact ⟨(accessQueue_frame _ _ s).runningCount c, (accessQueue_frame _ _ s).prevPins c⟩
  | reset => exact absurd rfl noReset

/-- Settles O12, by induction on the events: a reading of the channel adds its adjustment and is latched, every other
event leaves both registers. -/
theorem counterFollowsItsReadings : Obligations.CounterFollowsItsReadings := by
  intro es
  induction es with
  | nil =>
    intro s t c _ run
    cases run
    exact ⟨(add32_zero _).symm, rfl⟩
  | cons i es ih =>
    intro s u c legal run
    obtain ⟨t, first, rest⟩ := execAll_cons_inv run
    obtain ⟨event, noReset⟩ := legal i List.mem_cons_self
    have tail := ih t u c (fun j hj => legal j (List.mem_cons_of_mem i hj)) rest
    by_cases own : isStepOf c i
    · obtain ⟨p, rfl⟩ := eq_dstep_of_isEvent own event
      rw [exec_dstep_eq] at first
      cases first
      rw [runningCount_stepAtKey, prevPins_stepAtKey, presentedKey, keyCur_keyOf, wrap32_toNat_add32] at tail
      rw [readings_cons_dstep, List.getLastD_cons]
      exact tail
    · obtain ⟨counter, pins⟩ := exec_keeps_decoder_registers first noReset own
      rw [counter, pins] at tail
      rw [readings_cons_of_not_step own]
      exact tail

/-- A run of readings of one channel completes. -/
theorem execAll_readings_completes (c : Channel) (ps : List Pins) (s : State) :
    ∃ t, execAll (ps.map (.dstep c)) s = .next t := by
  induction ps generalizing s with
  | nil => exact ⟨s, rfl⟩
  | cons p ps ih =>
    obtain ⟨t, run⟩ := ih (stepAtKey c (presentedKey c p s) s)
    exact ⟨t, (execAll_cons_next (exec_dstep_eq c p s)).trans run⟩

theorem readings_map_dstep (c : Channel) (ps : List Pins) : readings c (ps.map (.dstep c)) = ps := by
  induction ps with
  | nil => rfl
  | cons p ps ih => rw [List.map_cons, readings_cons_dstep, ih]

/-- A run of readings of one channel adds the sum of their adjustments. -/
theorem execAll_readings_count (c : Channel) (ps : List Pins) (s : State) :
    ∃ t, execAll (ps.map (.dstep c)) s = .next t
      ∧ (t.ch c).runningCount = add32 (s.ch c).runningCount (adjSum (s.ch c).prevPins ps) := by
  obtain ⟨t, run⟩ := execAll_readings_completes c ps s
  obtain ⟨counter, -⟩ := counterFollowsItsReadings _ s t c (by simp [Instr.isEvent]) run
  rw [readings_map_dstep] at counter
  exact ⟨t, run, counter⟩

/-- The same, where the sum is known. -/
theorem execAll_readings_net {c : Channel} {ps : List Pins} {r : Pins} {net : Int} {s : State}
    (prev : (s.ch c).prevPins = r) (sum : adjSum r ps = net) :
    ∃ t, execAll (ps.map (.dstep c)) s = .next t
      ∧ (t.ch c).runningCount = (s.ch c).runningCount + BitVec.ofInt 32 net := by
  obtain ⟨t, run, counter⟩ := execAll_readings_count c ps s
  rw [prev, sum, add32_eq] at counter
  exact ⟨t, run, counter⟩

/-- Settles O13: the sums of the adjustments are 2, -2, 2 and 0. -/
theorem pinSequencesCount : Obligations.PinSequencesCount := by
  intro c s
  refine ⟨fun prev => ⟨?forward, ?backward⟩, fun prev => ⟨?dither, ?reversal⟩⟩
  case forward => exact execAll_readings_net (ps := [0b10#2, 0b11#2, 0b01#2, 0b00#2]) (net := 2) prev (by decide)
  case backward =>
    obtain ⟨t, run, counter⟩ :=
      execAll_readings_net (ps := [0b01#2, 0b11#2, 0b10#2, 0b00#2]) (net := -2) prev (by decide)
    rw [BitVec.ofInt_neg, ← BitVec.sub_eq_add_neg] at counter
    exact ⟨t, run, counter⟩
  case dither => exact execAll_readings_net (ps := [0b00#2, 0b01#2, 0b00#2]) (net := 2) prev (by decide)
  case reversal =>
    obtain ⟨t, run, counter⟩ := execAll_readings_net (ps := [0b00#2, 0b10#2, 0b00#2]) (net := 0) prev (by decide)
    exact ⟨t, run, counter.trans (BitVec.add_zero _)⟩

/-! ### The repeated reading (R100) -/

/-- A same-state step pushes the unchanged counter while there is room, and nothing else changes. -/
theorem stepAtKey_same (c : Channel) (s : State) :
    stepAtKey c (keyOf (s.ch c).prevPins (s.ch c).prevPins) s =
      s.setCh c { s.ch c with
        queue :=
          if (s.ch c).queue.length < s.qdepth then (s.ch c).queue ++ [(s.ch c).runningCount]
          else (s.ch c).queue } := by
  simp [stepAtKey_eq, transitionTable_same]

/-- As many copies as there is room for, one of them first. -/
theorem push_append_replicate (q : List Word) (w : Word) (depth k : Nat) :
    (if q.length < depth then q ++ [w] else q)
        ++ List.replicate (min k (depth - (if q.length < depth then q ++ [w] else q).length)) w
      = q ++ List.replicate (min (k + 1) (depth - q.length)) w := by
  split
  next room =>
    rw [List.append_assoc, List.singleton_append, ← List.replicate_succ, List.length_append, List.length_singleton]
    congr 2
    omega
  next full => rw [Nat.sub_eq_zero_of_le (Nat.le_of_not_lt full), Nat.min_zero, Nat.min_zero]

/-- Settles O47, by induction on the number of steps. -/
theorem holdPushesTheUnchangedCounter : Obligations.HoldPushesTheUnchangedCounter := by
  intro c k
  induction k with
  | zero => intro s; simp [holdEvents, execAll]
  | succ k ih =>
    intro s
    have tail := ih (stepAtKey c (keyOf (s.ch c).prevPins (s.ch c).prevPins) s)
    rw [stepAtKey_same] at tail
    simp only [holdEvents, ch_setCh_same, setCh_setCh, qdepth_setCh] at tail
    rw [holdEvents, List.replicate_succ, execAll_cons_next (exec_dstep_eq c _ s), presentedKey, stepAtKey_same, tail,
      push_append_replicate]

end Sys2Proof.Machine
end

section
/-!
PROOFS. The sampler's events one by one (43_velocity_sampler.md R190 to R203): the try-pop, the beginning of a call, the
stops, the accesses by what they find, a whole call, and the reset.
-/

namespace Sys2Proof.Machine

/-! ### The try-pop (R152) -/

/-- Settles O17: the word popped and the queue left, for an empty queue and for one with a head. -/
theorem tryPopTakesTheOldest : Obligations.TryPopTakesTheOldest := by
  refine fun c s => ⟨fun empty => ?_, fun w rest h => ?_⟩
  · unfold qtrypop; rw [empty]
  · unfold qtrypop; rw [h]

/-! ### Beginning a call, and the stops -/

/-- Settles O20. -/
theorem sbeginStartsAtLeft : Obligations.SbeginStartsAtLeft := fun _ idle => exec_sbegin_idle idle

/-- Settles O21. -/
theorem overlappingCallFaults : Obligations.OverlappingCallFaults :=
  fun _ call => ⟨exec_sample_busy call, exec_sbegin_busy call⟩

/-- Settles O22. -/
theorem accessOutsideACallIsRefused : Obligations.AccessOutsideACallIsRefused := fun _ idle => exec_sstep_idle idle

/-- Settles O23, by the kind of instruction and whether a call is in flight. -/
theorem nothingElseStops : Obligations.NothingElseStops := by
  intro i s
  rcases instr_cases i with ⟨c, k, rfl⟩ | ⟨c, p, rfl⟩ | rfl | rfl | rfl | rfl
  · exact .inl ⟨_, exec_decodeKey c k s⟩
  · exact .inl ⟨_, exec_dstep_eq c p s⟩
  · by_cases idle : s.smpPhase = .idle
    · exact .inl ⟨_, exec_sample_idle idle⟩
    · exact .inr (.inl ⟨.inl rfl, idle, exec_sample_busy idle⟩)
  · by_cases idle : s.smpPhase = .idle
    · exact .inl ⟨_, exec_sbegin_idle idle⟩
    · exact .inr (.inl ⟨.inr rfl, idle, exec_sbegin_busy idle⟩)
  · cases phase : s.smpPhase with
    | idle => exact .inr (.inr ⟨rfl, rfl, exec_sstep_idle phase⟩)
    | acc c n => exact .inl ⟨_, exec_sstep_acc phase⟩
  · exact .inl ⟨_, exec_reset_eq s⟩

/-! ### An access that goes on with the drain (R194, R195) -/

/-- A word leaves the queue, the first one is consulted, and nothing else changes but the phase. -/
theorem accessQueue_goes_on {c : Channel} {n : Nat} {s : State} {w : Word} {rest : List Word}
    (queue : (s.ch c).queue = w :: rest) (more : n + 1 ≠ s.qdepth) :
    (accessQueue c n s).ch c = { s.ch c with queue := rest }
      ∧ (accessQueue c n s).ch c.other = s.ch c.other
      ∧ (accessQueue c n s).smpPhase = .acc c (n + 1)
      ∧ (accessQueue c n s).smpCur = (if n = 0 then w else s.smpCur)
      ∧ SamplerFrame s (accessQueue c n s)
      ∧ NoReturn s (accessQueue c n s) := by
  refine ⟨?_, accessQueue_ch_of_ne n s (other_ne c), ?_, ?_, accessQueue_frame c n s, ⟨?_, ?_, ?_⟩⟩ <;>
    rw [accessQueue_cons c n s w rest queue] <;> simp [more]

/-- Settles O25: the first access of a drain that goes on. -/
theorem firstAccessConsultsTheOldest : Obligations.FirstAccessConsultsTheOldest :=
  fun _ _ _ _ call queue more => ⟨_, exec_sstep_acc call, accessQueue_goes_on queue (Ne.symm more)⟩

/-- Settles O26: a later access of a drain that goes on. -/
theorem drainDiscardsWords : Obligations.DrainDiscardsWords := by
  intro c n s w rest call later queue more
  obtain ⟨channel, other, phase, cur, frame, noReturn⟩ := accessQueue_goes_on queue more
  rw [if_neg (Nat.ne_of_gt later)] at cur
  exact ⟨_, exec_sstep_acc call, channel, other, phase, cur, frame, noReturn⟩

/-! ### An access that ends a channel (R193, R196 to R198, R203) -/

/-- After L the call stands at R's first access and nothing is returned. -/
theorem leaveChannel_L_outcome {s u : State} (outL : u.outL = s.outL) (outR : u.outR = s.outR)
    (returned : u.returned = s.returned) :
    (leaveChannel .L u).smpPhase = .acc .R 0 ∧ NoReturn s (leaveChannel .L u) :=
  ⟨rfl, outL, outR, returned⟩

/-- After R, whose channel is now `x`, the pair is returned. -/
theorem leaveChannel_R_outcome (s : State) (v : Word) (x : ChannelState) :
    Returned s.left.lastDelta (-x.lastDelta) s (leaveChannel .R (State.setCh { s with smpCur := v } .R x)) := by
  show Returned _ _ s (returnPair _)
  rw [returnPair_eq]
  exact ⟨rfl, rfl, rfl, rfl⟩

/-- Settles O24: the first access finds the queue empty. -/
theorem emptyQueueGivesZeroDelta : Obligations.EmptyQueueGivesZeroDelta := by
  intro c s call empty
  have ends : accessQueue c 0 s = leaveChannel c (s.setCh c { s.ch c with lastDelta := 0#32 }) :=
    accessQueue_first_nil c s empty
  have channel : (accessQueue c 0 s).ch c = { s.ch c with lastDelta := 0#32 } := by
    rw [ends, leaveChannel_ch, ch_setCh_same]
  obtain ⟨cur, -⟩ := leaveChannel_others c (s.setCh c { s.ch c with lastDelta := 0#32 })
  refine ⟨_, exec_sstep_acc call, ?_, ?_, ?_, ?_, accessQueue_ch_of_ne 0 s (other_ne c), ?_, accessQueue_frame c 0 s,
    ?_, ?_⟩
  · rw [channel]
  · rw [channel]
  · rw [channel]
  · rw [channel]; exact empty
  · rw [ends, cur, smpCur_setCh]
  · rintro rfl; rw [ends]; exact leaveChannel_L_outcome rfl rfl rfl
  · rintro rfl
    have back := leaveChannel_R_outcome s s.smpCur { s.ch .R with lastDelta := 0#32 }
    rw [BitVec.neg_zero] at back
    rw [ends]
    exact back

/-- The channel ends with the value `v`: the queue is found empty inside the drain, or the bound is reached inside it or at
once (R192, R195). -/
def EndsWith (c : Channel) (n : Nat) (s : State) (v : Word) : Prop :=
  (1 ≤ n ∧ (s.ch c).queue = [] ∧ v = s.smpCur)
    ∨ (1 ≤ n ∧ (s.ch c).queue ≠ [] ∧ n + 1 = s.qdepth ∧ v = s.smpCur)
    ∨ (n = 0 ∧ (s.ch c).queue.head? = some v ∧ s.qdepth = 1)

/-- The access that ends a channel stores what steps 3 to 5 make of the consulted value. -/
theorem accessQueue_ends {c : Channel} {n : Nat} {s : State} {v : Word} (h : EndsWith c n s v) :
    accessQueue c n s
      = leaveChannel c
          (State.setCh { s with smpCur := v } c (consultedChannel (s.ch c) v (s.ch c).queue.tail)) := by
  rcases h with ⟨later, empty, rfl⟩ | ⟨later, word, bound, rfl⟩ | ⟨rfl, head, bound⟩
  · rw [accessQueue_nil c n s (Nat.ne_of_gt later) empty, storeConsultedDelta_eq, empty, List.tail_nil, ← empty]
    rfl
  · obtain ⟨w, rest, queue⟩ := List.exists_cons_of_ne_nil word
    rw [accessQueue_cons c n s w rest queue, queue]
    simp only [bound, if_true, Nat.ne_of_gt later, if_false, storeConsultedDelta_eq]
    cases c <;> rfl
  · obtain ⟨rest, queue⟩ := List.head?_eq_some_iff.1 head
    rw [accessQueue_cons c 0 s v rest queue, queue]
    simp only [bound, if_true, storeConsultedDelta_eq]
    cases c <;> rfl

/-- Settles O27: the channel's registers after the access that ends it, and where the call goes from there. -/
theorem lastAccessComputesTheDelta : Obligations.LastAccessComputesTheDelta := by
  intro c n s v call h
  have ends := accessQueue_ends h
  refine ⟨_, exec_sstep_acc call, ?_, queue_accessQueue c n s, accessQueue_ch_of_ne n s (other_ne c), ?_,
    accessQueue_frame c n s, ?_, ?_⟩
  · rw [ends, leaveChannel_ch, ch_setCh_same]
    exact sampledRegisters_consulted (s.ch c) v _
  · obtain ⟨cur, -⟩ := leaveChannel_others c
      (State.setCh { s with smpCur := v } c (consultedChannel (s.ch c) v (s.ch c).queue.tail))
    rw [ends, cur, smpCur_setCh]
  · rintro rfl; rw [ends]; exact leaveChannel_L_outcome rfl rfl rfl
  · rintro rfl; rw [ends]; exact leaveChannel_R_outcome s v _

/-! ### A whole call (R190) -/

/-- Settles O28: what sampling both channels does, and the pair returned. -/
theorem sampleReturnsTheDeltas : Obligations.SampleReturnsTheDeltas := by
  intro s idle pos
  refine ⟨_, exec_sample_idle idle, fun c => ?_, fun c => ?_, smpCur_sampledState s, sampledState_frame s,
    sampledState_returned s⟩ <;> obtain ⟨registers, queue, -⟩ := sampledState_channels c s
  · exact registers
  · rw [queue, List.drop_tail, Nat.sub_add_cancel pos]

/-- Settles O31: the first call empties both queues, so the second finds them empty. -/
theorem secondCallReturnsZero : Obligations.SecondCallReturnsZero := by
  intro s idle pos fits
  obtain ⟨t, first, -, drained, -, frame, back⟩ := sampleReturnsTheDeltas s idle pos
  obtain ⟨u, second, registers, -, -, -, pair⟩ := sampleReturnsTheDeltas t back.idle (by rwa [frame.qdepth])
  have empty : ∀ c, (t.ch c).queue.head? = none := fun c => by
    rw [drained, List.drop_eq_nil_of_le ((Memory.wf_iff s).1 fits c), List.head?_nil]
  have kept : ∀ c, sampledRegisters (t.ch c) none (u.ch c) := fun c => empty c ▸ registers c
  obtain ⟨-, -, left⟩ := kept .L
  obtain ⟨-, -, right⟩ := kept .R
  rw [ch_L] at left
  rw [ch_R] at right
  rw [left, right] at pair
  refine ⟨t, u, first, second, pair, fun c => ?_⟩
  obtain ⟨sample, seen, -⟩ := kept c
  exact ⟨sample, seen⟩

/-- Settles O33: a call does the same to equal channels, and negates what it returns for R. -/
theorem rightIsTheNegationOfLeft : Obligations.RightIsTheNegationOfLeft := by
  intro s idle same
  have equal : (sampledState s).left = (sampledState s).right := by
    rw [← ch_L, ← ch_R, sampledState_ch, sampledState_ch, ch_L, ch_R, same]
  have back := sampledState_returned s
  refine ⟨_, exec_sample_idle idle, equal, ?_⟩
  rw [back.outR, back.outL, equal]
  exact (negated_eq _).symm

/-! ### The reset (70_reset_and_hazards.md R260) -/

/-- Settles O39. -/
theorem resetClearsEverything : Obligations.ResetClearsEverything := by
  intro s
  refine ⟨_, exec_reset_eq s, fun c => ?_, rfl, rfl, rfl, rfl, rfl, rfl⟩
  cases c <;> exact ⟨rfl, rfl, rfl, rfl, rfl, rfl⟩

/-- Settles O40. -/
theorem resetStateValues : Obligations.ResetStateValues := by
  intro q
  refine ⟨fun c => ?_, rfl, rfl, rfl⟩
  rw [resetOf_ch]
  exact ⟨rfl, rfl, rfl, rfl, rfl, rfl⟩

/-! ### Start-up (R262) -/

theorem DecoderFrame.refl (c : Channel) (s : State) : DecoderFrame c s s := by constructor <;> rfl

theorem DecoderFrame.trans {c : Channel} {s t u : State} (h : DecoderFrame c s t) (k : DecoderFrame c t u) :
    DecoderFrame c s u :=
  ⟨k.otherChannel.trans h.otherChannel, k.previousSample.trans h.previousSample,
    k.firstNonzeroSeen.trans h.firstNonzeroSeen, k.lastDelta.trans h.lastDelta, k.smpPhase.trans h.smpPhase,
    k.smpCur.trans h.smpCur, k.outL.trans h.outL, k.outR.trans h.outR, k.qdepth.trans h.qdepth,
    k.trace.trans h.trace, k.returned.trans h.returned, k.drawn.trans h.drawn⟩

/-- A step at a key of any decoder at most adds to a queue. -/
theorem queue_grows_stepAtKey (c d : Channel) (k : Key) (s : State) :
    (s.ch d).queue <+: ((stepAtKey c k s).ch d).queue := by
  by_cases h : d = c
  · subst h
    rw [queue_stepAtKey]
    split
    · exact ⟨_, rfl⟩
    · exact ⟨[], List.append_nil _⟩
  · rw [stepAtKey_ch_of_ne k s h]

/-- Steps of one decoder at most add to its queue, and keep all that one step keeps. -/
theorem execAll_readings_frame (c : Channel) (ps : List Pins) (s : State) :
    ∃ t, execAll (ps.map (.dstep c)) s = .next t ∧ (s.ch c).queue <+: (t.ch c).queue ∧ DecoderFrame c s t := by
  induction ps generalizing s with
  | nil => exact ⟨s, rfl, ⟨[], List.append_nil _⟩, DecoderFrame.refl c s⟩
  | cons p ps ih =>
    obtain ⟨t, run, queue, frame⟩ := ih (stepAtKey c (presentedKey c p s) s)
    exact ⟨t, (execAll_cons_next (exec_dstep_eq c p s)).trans run, (queue_grows_stepAtKey c c _ s).trans queue,
      (stepAtKey_frame c _ s).trans frame⟩

/-- Settles O41: the first step after reset queues a zero, which stays the oldest word and is the one consulted. -/
theorem firstCallAfterResetConsultsZero : Obligations.FirstCallAfterResetConsultsZero := by
  intro q c p ps pos
  obtain ⟨-, afterReset⟩ := firstStepNeverCounts
  obtain ⟨s, first, queue⟩ := afterReset c p q pos
  obtain ⟨t, run, grows, frame⟩ := execAll_readings_frame c ps s
  have begins : DecoderFrame c (State.resetOf q) s := by
    rw [exec_dstep_eq] at first
    cases first
    exact stepAtKey_frame c _ _
  have frame := begins.trans frame
  have head : (t.ch c).queue.head? = some 0#32 := by
    rw [queue] at grows
    obtain ⟨later, h⟩ := grows
    rw [← h]; rfl
  have other : (t.ch c.other).queue.head? = none := by rw [frame.otherChannel, resetOf_ch]; rfl
  obtain ⟨u, call, registers, -, -, -, back⟩ :=
    sampleReturnsTheDeltas t frame.smpPhase (by rwa [frame.qdepth])
  have own := registers c
  rw [head] at own
  obtain ⟨-, seen, delta⟩ := own
  have silent := registers c.other
  rw [other] at silent
  obtain ⟨-, -, otherDelta⟩ := silent
  rw [frame.firstNonzeroSeen, resetOf_ch] at seen delta
  rw [frame.previousSample, resetOf_ch] at delta
  have zero : u.left.lastDelta = 0#32 ∧ u.right.lastDelta = 0#32 := by
    cases c
    · exact ⟨delta, otherDelta⟩
    · exact ⟨otherDelta, delta⟩
  rw [zero.1, zero.2] at back
  exact ⟨t, u, (execAll_cons_next first).trans run, head, call, back, seen⟩

end Sys2Proof.Machine
end

section
/-!
PROOFS. Who writes what, and which orders agree (10_state.md R34, 20_memory.md R69, R70): the queues as FIFOs, the one
writer of each element, commuting steps, the orders of a push and a pop, and the registers the sampler does not read.
-/

namespace Sys2Proof.Machine

/-! ### The queues (R69) -/

/-- A step of a decoder that completes is the step at some key, for the event the key presented. -/
theorem eq_stepAtKey_of_isStepOf {i : Instr} {s t : State} {c : Channel} (run : exec i s = .next t)
    (own : isStepOf c i) : ∃ k, t = stepAtKey c k s := by
  cases completes_of_exec run with
  | decoder own' key =>
    cases isStepOf_unique own own'
    exact ⟨_, rfl⟩
  | sample idle => exact absurd own (not_isStepOf_sample c)
  | sbegin idle => exact absurd own (not_isStepOf_sbegin c)
  | sstep call => exact absurd own (not_isStepOf_sstep c)
  | reset => exact absurd own (not_isStepOf_reset c)

/-- What is no step of a channel's decoder at most removes words from the head of its queue. -/
theorem exec_queue_suffix {i : Instr} {s t : State} {c : Channel} (run : exec i s = .next t) (other : ¬ isStepOf c i) :
    (t.ch c).queue <:+ (s.ch c).queue := by
  cases completes_of_exec run with
  | decoder own key => rw [stepAtKey_ch_of_ne _ s (by rintro rfl; exact other own)]
  | sample idle =>
    obtain ⟨-, queue, -⟩ := sampledState_channels c s
    rw [queue]
    exact (List.drop_suffix _ _).trans (List.tail_suffix _)
  | sbegin idle => rw [ch_of_other_fields]
  | @sstep d n call =>
    by_cases h : c = d
    · subst h; rw [queue_accessQueue]; exact List.tail_suffix _
    · rw [accessQueue_ch_of_ne n s h]
  | reset =>
    have empty : ((clearedState s).ch c).queue = [] := by cases c <;> rfl
    rw [empty]
    exact List.nil_suffix

/-- Settles O18: a step of the channel's decoder appends its counter where there is room; nothing else appends. -/
theorem queuesAreFifo : Obligations.QueuesAreFifo := by
  intro i s t c run
  by_cases own : isStepOf c i
  · obtain ⟨k, rfl⟩ := eq_stepAtKey_of_isStepOf run own
    have queue := queue_stepAtKey c k s
    split at queue
    next room => exact .inr ⟨own, room, queue⟩
    next full => exact .inl (by rw [queue])
  · exact .inl (exec_queue_suffix run own)

/-- What is none of the sampler's three, and no reset, leaves all the sampler owns and at most adds to the queues. -/
theorem exec_keeps_sampler_registers {i : Instr} {s t : State} (c : Channel) (run : exec i s = .next t)
    (noReset : i ≠ .reset) (noSample : i ≠ .sample) (noBegin : i ≠ .sbegin) (noAccess : i ≠ .sstep) :
    (t.ch c).previousSample = (s.ch c).previousSample ∧ (t.ch c).firstNonzeroSeen = (s.ch c).firstNonzeroSeen
      ∧ (t.ch c).lastDelta = (s.ch c).lastDelta ∧ t.smpPhase = s.smpPhase ∧ t.smpCur = s.smpCur
      ∧ (s.ch c).queue <+: (t.ch c).queue := by
  cases completes_of_exec run with
  | @decoder d k _ own key =>
    obtain ⟨sample, seen, delta⟩ := stepAtKey_sampler_registers d c k s
    have frame := stepAtKey_frame d k s
    exact ⟨sample, seen, delta, frame.smpPhase, frame.smpCur, queue_grows_stepAtKey d c k s⟩
  | sample idle => exact absurd rfl noSample
  | sbegin idle => exact absurd rfl noBegin
  | sstep call => exact absurd rfl noAccess
  | reset => exact absurd rfl noReset

/-- Settles O35: the decoder's registers, the sampler's, and the other channel of a step. -/
theorem eachElementHasOneWriter : Obligations.EachElementHasOneWriter := by
  intro i s t c run noReset
  refine ⟨fun other => ?_, exec_keeps_sampler_registers c run noReset, fun own => ?_⟩
  · obtain ⟨counter, pins⟩ := exec_keeps_decoder_registers run noReset other
    exact ⟨counter, pins, exec_queue_suffix run other⟩
  · obtain ⟨k, rfl⟩ := eq_stepAtKey_of_isStepOf run own
    exact (stepAtKey_frame c k s).otherChannel

/-! ### Steps and accesses on different channels commute (R69 (g)) -/

/-- Leaving a channel reads of the other one only its raw delta. -/
theorem leaveChannel_setCh_other (c : Channel) (s : State) {x : ChannelState}
    (delta : x.lastDelta = (s.ch c.other).lastDelta) :
    leaveChannel c (s.setCh c.other x) = (leaveChannel c s).setCh c.other x := by
  cases c with
  | L => rfl
  | R =>
    change x.lastDelta = s.left.lastDelta at delta
    simp [leaveChannel, returnPair, State.setCh, Channel.other, delta]

/-- So does an access. -/
theorem accessQueue_setCh_other (c : Channel) (n : Nat) (s : State) {x : ChannelState}
    (delta : x.lastDelta = (s.ch c.other).lastDelta) :
    accessQueue c n (s.setCh c.other x) = (accessQueue c n s).setCh c.other x := by
  have accessed : accessedState c n (s.setCh c.other x) = (accessedState c n s).setCh c.other x := by cases c <;> rfl
  have untouched : x.lastDelta = ((accessedState c n s).ch c.other).lastDelta := by cases c <;> exact delta
  rw [accessQueue_eq, accessQueue_eq, accessed, ch_setCh_ne s x (ne_other c), qdepth_setCh]
  split
  · exact leaveChannel_setCh_other c _ untouched
  · cases c <;> rfl

/-- A step of one decoder and an access of the other channel's queue commute. -/
theorem accessQueue_stepAtKey_other (c : Channel) (n : Nat) (k : Key) (s : State) :
    accessQueue c n (stepAtKey c.other k s) = stepAtKey c.other k (accessQueue c n s) := by
  rw [stepAtKey_eq, stepAtKey_eq, accessQueue_ch_of_ne n s (other_ne c), (accessQueue_frame c n s).qdepth]
  exact accessQueue_setCh_other c n s rfl

theorem stepAtKey_comm (k l : Key) (s : State) :
    stepAtKey .R l (stepAtKey .L k s) = stepAtKey .L k (stepAtKey .R l s) := by
  simp only [stepAtKey_eq, qdepth_setCh]
  exact setCh_comm s .L _ _

theorem presentedKey_of_ch_eq {c : Channel} {s t : State} (p : Pins) (h : t.ch c = s.ch c) :
    presentedKey c p t = presentedKey c p s := by rw [presentedKey, presentedKey, h]

theorem execAll_two {i j : Instr} {s t : State} (h : exec i s = .next t) : execAll [i, j] s = exec j t := by
  rw [execAll_cons_next h, execAll]
  cases exec j t <;> rfl

/-- Settles O15: the keys presented do not depend on the order, and the steps and accesses commute. -/
theorem channelsCommute : Obligations.ChannelsCommute := by
  refine ⟨fun p q s => ?_, fun c p n s call => ?_⟩
  · rw [execAll_two (exec_dstep_eq _ _ _), execAll_two (exec_dstep_eq _ _ _), exec_dstep_eq, exec_dstep_eq,
      presentedKey_of_ch_eq q (stepAtKey_ch_of_ne (c := .L) (d := .R) _ s nofun),
      presentedKey_of_ch_eq p (stepAtKey_ch_of_ne (c := .R) (d := .L) _ s nofun),
      stepAtKey_comm]
  · have call' : (stepAtKey c (presentedKey c p s) s).smpPhase = .acc c.other n := by rw [smpPhase_stepAtKey, call]
    have commute := accessQueue_stepAtKey_other c.other n (presentedKey c p s) s
    rw [other_other] at commute
    rw [execAll_two (exec_dstep_eq _ _ _), exec_sstep_acc call', execAll_two (exec_sstep_acc call), exec_dstep_eq,
      presentedKey_of_ch_eq p (accessQueue_ch_of_ne n s (ne_other c)), commute]

/-! ### A push and a pop on one queue (R70) -/

/-- A step and then an access of the same channel. -/
theorem execAll_dstep_sstep {c : Channel} {n : Nat} {s : State} (p : Pins) (call : s.smpPhase = .acc c n) :
    execAll [.dstep c p, .sstep] s = .next (accessQueue c n (stepAtKey c (presentedKey c p s) s)) := by
  rw [execAll_two (exec_dstep_eq c p s)]
  exact exec_sstep_acc (by rw [smpPhase_stepAtKey, call])

/-- An access and then a step of the same channel. -/
theorem execAll_sstep_dstep {c : Channel} {n : Nat} {s : State} (p : Pins) (call : s.smpPhase = .acc c n) :
    execAll [.sstep, .dstep c p] s
      = .next (stepAtKey c (presentedKey c p (accessQueue c n s)) (accessQueue c n s)) := by
  rw [execAll_two (exec_sstep_acc call), exec_dstep_eq]

/-- After an access there is room on a queue that was not beyond its capacity, so a step appends its counter. -/
theorem queue_stepAtKey_accessQueue {c : Channel} {s : State} (n : Nat) (k : Key) (pos : 1 ≤ s.qdepth)
    (fits : (s.ch c).queue.length ≤ s.qdepth) :
    ((stepAtKey c k (accessQueue c n s)).ch c).queue
      = (s.ch c).queue.tail ++ [((stepAtKey c k (accessQueue c n s)).ch c).runningCount] := by
  rw [queue_stepAtKey, queue_accessQueue, (accessQueue_frame c n s).qdepth, if_pos]
  rw [List.length_tail]
  omega

/-- The first access of a channel consults the oldest word. -/
theorem smpCur_accessQueue_first {c : Channel} {s : State} {w : Word} {rest : List Word}
    (queue : (s.ch c).queue = w :: rest) : (accessQueue c 0 s).smpCur = w := by
  rw [accessQueue_cons c 0 s w rest queue]
  by_cases last : 0 + 1 = s.qdepth <;> cases c <;> simp [last, storeConsultedDelta_eq, leaveChannel, returnPair]

/-- Settles O19: on a full queue the push is lost or takes the popped word's place; on an empty one the pop sees the word
pushed or nothing. -/
theorem pushAndPopOrdersDiffer : Obligations.PushAndPopOrdersDiffer := by
  intro c p n s pos call
  refine ⟨fun full => ⟨⟨_, execAll_dstep_sstep p call, ?_⟩, _, execAll_sstep_dstep p call, ?_⟩,
    fun empty first => ⟨⟨_, execAll_dstep_sstep p call, ?_⟩, _, execAll_sstep_dstep p call, ?_⟩⟩
  · rw [queue_accessQueue, queue_stepAtKey, if_neg (by omega)]
  · exact queue_stepAtKey_accessQueue n _ pos (by omega)
  · subst first
    have pushed : ((stepAtKey c (presentedKey c p s) s).ch c).queue
        = [((stepAtKey c (presentedKey c p s) s).ch c).runningCount] := by
      rw [queue_stepAtKey, empty]
      exact if_pos pos
    rw [queue_accessQueue, pushed, (accessQueue_frame c 0 _).runningCount, smpCur_accessQueue_first pushed]
    exact ⟨rfl, rfl⟩
  · subst first
    obtain ⟨-, -, delta⟩ :=
      stepAtKey_sampler_registers c c (presentedKey c p (accessQueue c 0 s)) (accessQueue c 0 s)
    refine ⟨?_, ?_⟩
    · rw [queue_stepAtKey_accessQueue 0 _ pos (by rw [empty]; exact Nat.zero_le _), empty]
      rfl
    · rw [delta, accessQueue_first_nil c s empty, leaveChannel_ch, storeEmptyDelta_eq, ch_setCh_same]

/-! ### The sampler does not read the decoder's registers (R21, R34) -/

@[simp] theorem smpPhase_withDecoder (c : Channel) (m : Word) (p : Pins) (s : State) :
    (withDecoder c m p s).smpPhase = s.smpPhase := smpPhase_setCh s c _

@[simp] theorem queue_withDecoder (c d : Channel) (m : Word) (p : Pins) (s : State) :
    ((withDecoder c m p s).ch d).queue = (s.ch d).queue := by cases c <;> cases d <;> rfl

/-- A channel's access computes the same whatever the decoder's registers hold. -/
theorem accessedChannel_withDecoder (n depth : Nat) (cur : Word) (x : ChannelState) (m : Word) (p : Pins) :
    accessedChannel n depth cur { x with runningCount := m, prevPins := p }
      = { accessedChannel n depth cur x with runningCount := m, prevPins := p } := by
  unfold accessedChannel
  cases x.queue <;> dsimp only <;> split <;> rfl

theorem sampledChannel_withDecoder (depth : Nat) (x : ChannelState) (m : Word) (p : Pins) :
    sampledChannel depth { x with runningCount := m, prevPins := p }
      = { sampledChannel depth x with runningCount := m, prevPins := p } := by
  unfold sampledChannel
  cases x.queue <;> rfl

theorem leaveChannel_withDecoder (c d : Channel) (m : Word) (p : Pins) (s : State) :
    leaveChannel d (withDecoder c m p s) = withDecoder c m p (leaveChannel d s) := by
  cases c <;> cases d <;> rfl

theorem accessedState_withDecoder (c d : Channel) (n : Nat) (m : Word) (p : Pins) (s : State) :
    accessedState d n (withDecoder c m p s) = withDecoder c m p (accessedState d n s) := by
  by_cases h : c = d
  · subst h
    simp only [accessedState, withDecoder, ch_setCh_same, qdepth_setCh, smpCur_setCh, accessedChannel_withDecoder]
    cases c <;> rfl
  · obtain rfl := eq_other_of_ne h
    cases d <;> rfl

theorem accessQueue_withDecoder (c d : Channel) (n : Nat) (m : Word) (p : Pins) (s : State) :
    accessQueue d n (withDecoder c m p s) = withDecoder c m p (accessQueue d n s) := by
  have depth : (withDecoder c m p s).qdepth = s.qdepth := qdepth_setCh s c _
  rw [accessQueue_eq, accessQueue_eq, accessedState_withDecoder, queue_withDecoder, depth]
  split
  · exact leaveChannel_withDecoder c d m p _
  · cases c <;> rfl

theorem sampleChannel_withDecoder (c d : Channel) (m : Word) (p : Pins) (s : State) :
    sampleChannel d (withDecoder c m p s) = withDecoder c m p (sampleChannel d s) := by
  rw [sampleChannel_eq, sampleChannel_eq]
  by_cases h : c = d
  · subst h
    simp only [withDecoder, ch_setCh_same, qdepth_setCh, smpCur_setCh, sampledChannel_withDecoder]
    cases c <;> rfl
  · obtain rfl := eq_other_of_ne h
    cases d <;> rfl

theorem sampledState_withDecoder (c : Channel) (m : Word) (p : Pins) (s : State) :
    sampledState (withDecoder c m p s) = withDecoder c m p (sampledState s) := by
  unfold sampledState
  rw [sampleChannel_withDecoder, sampleChannel_withDecoder]
  cases c <;> rfl

/-- Settles O38, for each of the sampler's three and whether a call is in flight. -/
theorem samplerNeverReadsTheDecoder : Obligations.SamplerNeverReadsTheDecoder := by
  intro i s c m p h
  have phase := smpPhase_withDecoder c m p s
  rcases h with rfl | rfl | rfl
  · by_cases idle : s.smpPhase = .idle
    · rw [exec_sample_idle (phase.trans idle), exec_sample_idle idle, sampledState_withDecoder]; rfl
    · rw [exec_sample_busy (by rwa [phase]), exec_sample_busy idle]; rfl
  · by_cases idle : s.smpPhase = .idle
    · rw [exec_sbegin_idle (phase.trans idle), exec_sbegin_idle idle]; cases c <;> rfl
    · rw [exec_sbegin_busy (by rwa [phase]), exec_sbegin_busy idle]; rfl
  · cases call : s.smpPhase with
    | idle => rw [exec_sstep_idle (phase.trans call), exec_sstep_idle call]; rfl
    | acc d n => rw [exec_sstep_acc (phase.trans call), exec_sstep_acc call, accessQueue_withDecoder]; rfl

end Sys2Proof.Machine
end

section
/-!
PROOFS. The account of a call's deltas along a run (43_velocity_sampler.md R204): what one event does to a channel's
sampler registers, to the delta of L that waits for the call's return, and to the pairs returned; and the statements over
runs that follow by adding up.
-/

namespace Sys2Proof.Machine

/-! ### What an access does to the account -/

/-- The sampler's registers of the channel are as before. -/
structure RegistersKept (x y : ChannelState) : Prop where
  previousSample : y.previousSample = x.previousSample
  firstNonzeroSeen : y.firstNonzeroSeen = x.firstNonzeroSeen
  lastDelta : y.lastDelta = x.lastDelta

theorem RegistersKept.of_eq {x y : ChannelState} (h : y = x) : RegistersKept x y := by rw [h]; exact ⟨rfl, rfl, rfl⟩

/-- The raw delta of a channel that has been computed and not yet returned: L's, while the call is at R (R192). -/
def pendingDelta : Channel → State → Word
  | .L, s =>
    match s.smpPhase with
    | .acc .R _ => s.left.lastDelta
    | .acc .L _ | .idle => 0#32
  | .R, _ => 0#32

theorem pendingDelta_idle {s : State} (idle : s.smpPhase = .idle) (c : Channel) : pendingDelta c s = 0#32 := by
  cases c with
  | L => rw [pendingDelta, idle]
  | R => rfl

theorem pendingDelta_acc_L {s : State} {n : Nat} (call : s.smpPhase = .acc .L n) (c : Channel) :
    pendingDelta c s = 0#32 := by
  cases c with
  | L => rw [pendingDelta, call]
  | R => rfl

theorem pendingDelta_L_acc_R {s : State} {n : Nat} (call : s.smpPhase = .acc .R n) :
    pendingDelta .L s = s.left.lastDelta := by rw [pendingDelta, call]

/-- An event that changes neither the phase nor L's raw delta leaves the account. -/
theorem pendingDelta_congr {s t : State} (c : Channel) (phase : t.smpPhase = s.smpPhase)
    (delta : t.left.lastDelta = s.left.lastDelta) : pendingDelta c t = pendingDelta c s := by
  cases c with
  | L => rw [pendingDelta, pendingDelta, phase, delta]
  | R => rfl

/-- Channel `c` takes the delta of its first access `first`, or is not concerned. The pair returned, if one is, and the
delta that waits account for it. -/
inductive Accounts (c : Channel) (s t : State) (pair : Option (Word × Word)) : Prop where
  | kept (registers : RegistersKept (s.ch c) (t.ch c))
      (account : rawSum c pair.toList + pendingDelta c t = pendingDelta c s)
  | sampled (first : Option Word) (registers : sampledRegisters (s.ch c) first (t.ch c))
      (silent : (s.ch c).queue = [] → (∀ n, s.smpPhase = .acc c n → n = 0) → first = none)
      (account : rawSum c pair.toList + pendingDelta c t = pendingDelta c s + (t.ch c).lastDelta)

/-- The pair that an event returned, if it returned one, and no call is in flight then. -/
structure ReturnsPair (s t : State) (pair : Option (Word × Word)) : Prop where
  returned : t.returned = s.returned ++ pair.toList
  idle : pair ≠ none → t.smpPhase = .idle

theorem returnsPair_none {s t : State} (h : t.returned = s.returned) : ReturnsPair s t none :=
  ⟨by rw [h]; exact (List.append_nil _).symm, fun h => absurd rfl h⟩

theorem returnsPair_some {s t : State} {a b : Word} (h : Returned a b s t) : ReturnsPair s t (some (a, b)) :=
  ⟨h.returned, fun _ => h.idle⟩

/-- The end of a channel's accesses, `first` being the result of the first one. -/
structure ChannelEnds (d : Channel) (first : Option Word) (s t : State) : Prop where
  registers : sampledRegisters (s.ch d) first (t.ch d)
  left : d = .L → t.smpPhase = .acc .R 0 ∧ NoReturn s t
  right : d = .R → Returned s.left.lastDelta (-t.right.lastDelta) s t

/-- The drain of the channel goes on: a word has left the queue, the bound is not reached, nothing is returned. -/
structure DrainGoesOn (d : Channel) (n : Nat) (s t : State) : Prop where
  registers : RegistersKept (s.ch d) (t.ch d)
  phase : t.smpPhase = .acc d (n + 1)
  noReturn : NoReturn s t
  word : (s.ch d).queue ≠ []
  bound : n + 1 ≠ s.qdepth

/-- An access ends its channel, with no consulted value only where the first one finds the queue empty, or the drain goes
on. -/
theorem accessQueue_ends_or_goes_on {d : Channel} {n : Nat} {s : State} (call : s.smpPhase = .acc d n) :
    (∃ first, ChannelEnds d first s (accessQueue d n s) ∧ ((s.ch d).queue = [] → n = 0 → first = none))
      ∨ DrainGoesOn d n s (accessQueue d n s) := by
  have ends : ∀ v, EndsWith d n s v → ChannelEnds d (some v) s (accessQueue d n s) := by
    intro v h
    obtain ⟨t, run, registers, -, -, -, -, left, right⟩ := lastAccessComputesTheDelta d n s v call h
    rw [exec_sstep_acc call] at run
    cases run
    exact ⟨registers, left, right⟩
  cases queue : (s.ch d).queue with
  | nil =>
    by_cases h : n = 0
    · subst h
      obtain ⟨t, run, delta, sample, seen, -, -, -, -, left, right⟩ := emptyQueueGivesZeroDelta d s call queue
      rw [exec_sstep_acc call] at run
      cases run
      refine .inl ⟨none, ⟨⟨sample, seen, delta⟩, left, fun h => ?_⟩, fun _ _ => rfl⟩
      subst h
      rw [ch_R] at delta
      rw [delta]
      exact right rfl
    · exact .inl ⟨_, ends s.smpCur (.inl ⟨Nat.pos_of_ne_zero h, queue, rfl⟩), fun _ first => absurd first h⟩
  | cons w rest =>
    by_cases bound : n + 1 = s.qdepth
    · obtain ⟨v, h⟩ : ∃ v, EndsWith d n s v := by
        by_cases first : n = 0
        · exact ⟨w, .inr (.inr ⟨first, by rw [queue]; rfl, by omega⟩)⟩
        · exact ⟨s.smpCur, .inr (.inl ⟨Nat.pos_of_ne_zero first, by rw [queue]; nofun, bound, rfl⟩)⟩
      exact .inl ⟨_, ends v h, nofun⟩
    · obtain ⟨channel, -, phase, -, -, noReturn⟩ := accessQueue_goes_on queue bound
      exact .inr ⟨by rw [channel]; exact ⟨rfl, rfl, rfl⟩, phase, noReturn, by rw [queue]; nofun, bound⟩

theorem accessQueue_accounts {d : Channel} {n : Nat} {s : State} (call : s.smpPhase = .acc d n) :
    ∃ pair, ReturnsPair s (accessQueue d n s) pair ∧ ∀ c, Accounts c s (accessQueue d n s) pair := by
  rcases accessQueue_ends_or_goes_on call with ⟨first, ends, silent⟩ | goesOn
  · have takes : ∀ pair, rawSum d pair.toList + pendingDelta d (accessQueue d n s)
        = pendingDelta d s + ((accessQueue d n s).ch d).lastDelta → Accounts d s (accessQueue d n s) pair :=
      fun pair account => .sampled first ends.registers (fun empty place => silent empty (place n call)) account
    have other : (accessQueue d n s).ch d.other = s.ch d.other := accessQueue_ch_of_ne n s (other_ne d)
    cases d with
    | L =>
      obtain ⟨phase, noReturn⟩ := ends.left rfl
      refine ⟨none, returnsPair_none noReturn.returned, fun c => ?_⟩
      cases c with
      | L =>
        refine takes none ?_
        rw [pendingDelta_L_acc_R phase, pendingDelta_acc_L call]
        rfl
      | R => exact .kept (.of_eq other) rfl
    | R =>
      have back := ends.right rfl
      refine ⟨_, returnsPair_some back, fun c => ?_⟩
      cases c with
      | L =>
        refine .kept (.of_eq other) ?_
        rw [pendingDelta_idle back.idle, pendingDelta_L_acc_R call]
        simp [rawSum, rawComponent]
      | R =>
        refine takes _ ?_
        simp [rawSum, rawComponent, pendingDelta]
  · have phase := goesOn.phase
    refine ⟨none, returnsPair_none goesOn.noReturn.returned, fun c => ?_⟩
    have keeps : ∀ e, RegistersKept (s.ch e) ((accessQueue d n s).ch e) := fun e => by
      by_cases h : e = d
      · subst h; exact goesOn.registers
      · exact .of_eq (accessQueue_ch_of_ne n s h)
    refine .kept (keeps c) ?_
    rw [Option.toList_none, rawSum, BitVec.zero_add]
    cases c with
    | R => rfl
    | L =>
      cases d with
      | L => rw [pendingDelta_acc_L phase, pendingDelta_acc_L call]
      | R => rw [pendingDelta_L_acc_R phase, pendingDelta_L_acc_R call]; exact (keeps .L).lastDelta

/-! ### What an event does to the account -/

/-- Every event but a reset accounts for the deltas it computes; only the sampler's calls and accesses compute any. -/
theorem exec_accounts {i : Instr} {s t : State} (run : exec i s = .next t) (noReset : i ≠ .reset) :
    ∃ pair, ReturnsPair s t pair ∧ ∀ c, Accounts c s t pair
      ∧ (i = .sample ∨ i = .sstep ∨ RegistersKept (s.ch c) (t.ch c)) := by
  cases completes_of_exec run with
  | @decoder d k _ own key =>
    have frame := stepAtKey_frame d k s
    have kept : ∀ e, RegistersKept (s.ch e) ((stepAtKey d k s).ch e) := fun e =>
      let ⟨sample, seen, delta⟩ := stepAtKey_sampler_registers d e k s
      ⟨sample, seen, delta⟩
    refine ⟨none, returnsPair_none frame.returned, fun c => ⟨.kept (kept c) ?_, .inr (.inr (kept c))⟩⟩
    rw [Option.toList_none, rawSum, BitVec.zero_add]
    exact pendingDelta_congr c frame.smpPhase (kept .L).lastDelta
  | sample idle =>
    have back := sampledState_returned s
    refine ⟨_, returnsPair_some back, fun c => ⟨?_, .inl rfl⟩⟩
    obtain ⟨registers, -⟩ := sampledState_channels c s
    refine .sampled _ registers (fun empty _ => by rw [empty]; rfl) ?_
    rw [pendingDelta_idle back.idle, pendingDelta_idle idle]
    cases c <;> simp [rawSum, rawComponent]
  | sbegin idle =>
    refine ⟨none, returnsPair_none rfl, fun c => ?_⟩
    have kept : RegistersKept (s.ch c) (State.ch { s with smpPhase := .acc .L 0 } c) :=
      .of_eq (ch_of_other_fields ..)
    refine ⟨.kept kept ?_, .inr (.inr kept)⟩
    rw [pendingDelta_idle idle, pendingDelta_acc_L (n := 0) rfl]
    rfl
  | sstep call =>
    obtain ⟨pair, returns, accounts⟩ := accessQueue_accounts call
    exact ⟨pair, returns, fun c => ⟨accounts c, .inr (.inl rfl)⟩⟩
  | reset => exact absurd rfl noReset

/-! ### The glitch-filter register (R24) -/

/-- An event that completes and is no reset: the filter's register by the value consulted, if one is. -/
theorem exec_filter {i : Instr} {s t : State} (c : Channel) (run : exec i s = .next t) (noReset : i ≠ .reset) :
    ((t.ch c).firstNonzeroSeen = (s.ch c).firstNonzeroSeen ∧ (t.ch c).previousSample = (s.ch c).previousSample)
      ∨ (∃ w, (i = .sample ∨ i = .sstep) ∧ sampledRegisters (s.ch c) (some w) (t.ch c)) := by
  obtain ⟨pair, -, accounts⟩ := exec_accounts run noReset
  obtain ⟨account, by_whom⟩ := accounts c
  rcases by_whom with sampler | sampler | kept
  case inr.inr => exact .inl ⟨kept.firstNonzeroSeen, kept.previousSample⟩
  all_goals
    cases account with
    | kept registers _ => exact .inl ⟨registers.firstNonzeroSeen, registers.previousSample⟩
    | sampled first registers _ _ =>
      cases first with
      | none => obtain ⟨sample, seen, -⟩ := registers; exact .inl ⟨seen, sample⟩
      | some w => exact .inr ⟨w, by simp [sampler], registers⟩

theorem firstNonzeroSeen_clearedState (s : State) (c : Channel) :
    ((clearedState s).ch c).firstNonzeroSeen = false := by cases c <;> rfl

/-- Settles O34: the value consulted decides whether the filter fires. -/
theorem glitchFilterFiresOnce : Obligations.GlitchFilterFiresOnce := by
  refine ⟨fun q c => by rw [resetOf_ch]; rfl, fun i s t c run => ?_⟩
  by_cases reset : i = .reset
  · subst reset
    rw [exec_reset_eq] at run
    cases run
    refine ⟨fun _ h => absurd rfl h, fun _ fired => ?_, fun _ h => ?_⟩
    · rw [firstNonzeroSeen_clearedState] at fired; cases fired
    · rcases h with h | h <;> cases h
  · rcases exec_filter c run reset with ⟨seen, sample⟩ | ⟨w, sampler, sample, seen, delta⟩
    · refine ⟨fun fired _ => seen.trans fired, fun unfired fired => ?_, fun _ _ changed _ => absurd sample changed⟩
      rw [seen, unfired] at fired; cases fired
    · refine ⟨fun fired _ => by rw [seen, fired]; rfl, fun unfired fired => ?_, fun unfired _ _ nonzero => ?_⟩
      · have nonzero : w ≠ 0#32 := by
          rw [seen, unfired] at fired
          simpa using fired
        exact ⟨sampler, by rwa [sample], by rw [delta, if_pos ⟨unfired, nonzero⟩]⟩
      · rw [sample] at nonzero
        rw [seen, unfired]
        simpa using nonzero

/-! ### Telescoping (R204 (c)) -/

theorem rawSum_append (c : Channel) (ps qs : List (Word × Word)) :
    rawSum c (ps ++ qs) = rawSum c ps + rawSum c qs := by
  induction ps with
  | nil => exact (BitVec.zero_add _).symm
  | cons pair ps ih => rw [List.cons_append, rawSum, rawSum, ih, BitVec.add_assoc]

/-- With the filter fired the delta of a channel is what its last value consulted has changed by. -/
theorem sampledRegisters_telescopes {x y : ChannelState} {first : Option Word} (h : sampledRegisters x first y)
    (fired : x.firstNonzeroSeen = true) :
    y.firstNonzeroSeen = true ∧ y.lastDelta = x.previousSample - y.previousSample := by
  cases first with
  | none =>
    obtain ⟨sample, seen, delta⟩ := h
    exact ⟨seen.trans fired, by rw [delta, sample, BitVec.sub_self]⟩
  | some w =>
    obtain ⟨sample, seen, delta⟩ := h
    exact ⟨by rw [seen, fired]; rfl, by rw [delta, sample, fired]; rfl⟩

theorem exec_telescopes {i : Instr} {s t : State} (c : Channel) (run : exec i s = .next t) (noReset : i ≠ .reset)
    (fired : (s.ch c).firstNonzeroSeen = true) :
    (t.ch c).firstNonzeroSeen = true
      ∧ ∃ new, t.returned = s.returned ++ new
        ∧ rawSum c new + pendingDelta c t
          = pendingDelta c s + ((s.ch c).previousSample - (t.ch c).previousSample) := by
  obtain ⟨pair, returns, accounts⟩ := exec_accounts run noReset
  obtain ⟨account, -⟩ := accounts c
  cases account with
  | kept registers account =>
    refine ⟨registers.firstNonzeroSeen.trans fired, _, returns.returned, ?_⟩
    rw [account, registers.previousSample, BitVec.sub_self, BitVec.add_zero]
  | sampled first registers _ account =>
    obtain ⟨seen, delta⟩ := sampledRegisters_telescopes registers fired
    exact ⟨seen, _, returns.returned, by rw [account, delta]⟩

/-- The account of a whole run without a reset. -/
theorem execAll_telescopes {es : List Instr} {s t : State} (c : Channel) (fired : (s.ch c).firstNonzeroSeen = true)
    (noReset : ∀ i ∈ es, i ≠ .reset) (run : execAll es s = .next t) :
    ∃ new, t.returned = s.returned ++ new
      ∧ rawSum c new + pendingDelta c t
        = pendingDelta c s + ((s.ch c).previousSample - (t.ch c).previousSample) := by
  induction es generalizing s with
  | nil =>
    cases run
    exact ⟨[], (List.append_nil _).symm, by rw [rawSum, BitVec.sub_self, BitVec.add_zero, BitVec.zero_add]⟩
  | cons i es ih =>
    obtain ⟨u, first, rest⟩ := execAll_cons_inv run
    obtain ⟨stays, new, returned, account⟩ := exec_telescopes c first (noReset i List.mem_cons_self) fired
    obtain ⟨later, returned', account'⟩ := ih stays (fun j hj => noReset j (List.mem_cons_of_mem i hj)) rest
    refine ⟨new ++ later, by rw [returned', returned, List.append_assoc], ?_⟩
    rw [rawSum_append]
    linear_combination account + account'

/-- Settles O36: no delta waits where no call is in flight. -/
theorem deltasTelescope : Obligations.DeltasTelescope := by
  intro es s t c idle fired noReset run idle'
  obtain ⟨new, returned, account⟩ := execAll_telescopes c fired noReset run
  rw [pendingDelta_idle idle, pendingDelta_idle idle', BitVec.add_zero, BitVec.zero_add] at account
  exact ⟨new, returned, account⟩

/-! ### A silent channel (R204 (b)) -/

/-- A silent channel: nothing queued, no drain of it under way, and no delta of it but 0 waits to be returned. -/
structure Silent (c : Channel) (s : State) : Prop where
  empty : (s.ch c).queue = []
  place : ∀ n, s.smpPhase = .acc c n → n = 0
  pending : pendingDelta c s = 0#32

/-- With nothing queued the call is never inside the channel's drain. -/
theorem exec_keeps_place {i : Instr} {s t : State} {c : Channel} (run : exec i s = .next t)
    (empty : (s.ch c).queue = []) (place : ∀ n, s.smpPhase = .acc c n → n = 0) :
    ∀ n, t.smpPhase = .acc c n → n = 0 := by
  cases completes_of_exec run with
  | decoder own key => rwa [smpPhase_stepAtKey]
  | sample idle => rw [(sampledState_returned s).idle]; nofun
  | sbegin idle => intro n h; cases h; rfl
  | @sstep d m call =>
    rcases accessQueue_ends_or_goes_on call with ⟨first, ends, -⟩ | goesOn
    · cases d with
      | L => obtain ⟨phase, -⟩ := ends.left rfl; rw [phase]; intro n h; cases h; rfl
      | R => rw [(ends.right rfl).idle]; nofun
    · rw [goesOn.phase]
      intro n h
      cases h
      exact absurd empty goesOn.word
  | reset => nofun

/-- A pair whose delta of the channel, with what waits, adds up to 0 has the component 0, as nothing waits after it. -/
theorem component_of_returnsPair {s t : State} {c : Channel} {pair : Option (Word × Word)}
    (returns : ReturnsPair s t pair) (sum : rawSum c pair.toList + pendingDelta c t = 0#32) :
    pendingDelta c t = 0#32 ∧ ∀ p ∈ pair.toList, component c p = 0#32 := by
  cases pair with
  | none => exact ⟨by rwa [Option.toList_none, rawSum, BitVec.zero_add] at sum, nofun⟩
  | some pair =>
    have waits := pendingDelta_idle (returns.idle nofun) c
    rw [waits, Option.toList_some, rawSum, rawSum, BitVec.add_zero, BitVec.add_zero] at sum
    refine ⟨waits, fun p hp => ?_⟩
    rw [Option.toList_some, List.mem_singleton] at hp
    subst hp
    cases c with
    | L => exact sum
    | R => exact BitVec.neg_eq_zero_iff.1 sum

/-- From `s` to `t` the channel kept its registers, and every pair returned has the component 0 for it. -/
structure ReturnedZeros (c : Channel) (s t : State) : Prop where
  previousSample : (t.ch c).previousSample = (s.ch c).previousSample
  firstNonzeroSeen : (t.ch c).firstNonzeroSeen = (s.ch c).firstNonzeroSeen
  returned : ∃ new, t.returned = s.returned ++ new ∧ ∀ pair ∈ new, component c pair = 0#32

theorem ReturnedZeros.refl (c : Channel) (s : State) : ReturnedZeros c s s :=
  ⟨rfl, rfl, [], (List.append_nil _).symm, nofun⟩

theorem ReturnedZeros.trans {c : Channel} {s t u : State} (h : ReturnedZeros c s t) (k : ReturnedZeros c t u) :
    ReturnedZeros c s u := by
  obtain ⟨new, returned, zero⟩ := h.returned
  obtain ⟨later, returned', zero'⟩ := k.returned
  refine ⟨k.previousSample.trans h.previousSample, k.firstNonzeroSeen.trans h.firstNonzeroSeen, new ++ later, ?_,
    fun pair mem => (List.mem_append.1 mem).elim (zero pair) (zero' pair)⟩
  rw [returned', returned, List.append_assoc]

/-- An event that is no reset and no step of a silent channel leaves it silent, its registers, and returns 0 for it. -/
theorem exec_keeps_silent {i : Instr} {s t : State} {c : Channel} (run : exec i s = .next t) (noReset : i ≠ .reset)
    (other : ¬ isStepOf c i) (silent : Silent c s) : Silent c t ∧ ReturnedZeros c s t := by
  obtain ⟨pair, returns, accounts⟩ := exec_accounts run noReset
  obtain ⟨account, -⟩ := accounts c
  have empty : (t.ch c).queue = [] := List.suffix_nil.1 (silent.empty ▸ exec_queue_suffix run other)
  have place := exec_keeps_place run silent.empty silent.place
  cases account with
  | kept registers account =>
    obtain ⟨pending, zero⟩ := component_of_returnsPair returns (account.trans silent.pending)
    exact ⟨⟨empty, place, pending⟩, registers.previousSample, registers.firstNonzeroSeen, _, returns.returned, zero⟩
  | sampled first registers none account =>
    cases none silent.empty silent.place
    obtain ⟨sample, seen, delta⟩ := registers
    rw [delta, silent.pending] at account
    obtain ⟨pending, zero⟩ := component_of_returnsPair returns account
    exact ⟨⟨empty, place, pending⟩, sample, seen, _, returns.returned, zero⟩

theorem execAll_keeps_silent {es : List Instr} {s t : State} {c : Channel} (run : execAll es s = .next t)
    (legal : ∀ i ∈ es, i ≠ .reset ∧ ¬ isStepOf c i) (silent : Silent c s) : Silent c t ∧ ReturnedZeros c s t := by
  induction es generalizing s with
  | nil =>
    cases run
    exact ⟨silent, .refl c _⟩
  | cons i es ih =>
    obtain ⟨u, first, rest⟩ := execAll_cons_inv run
    obtain ⟨noReset, other⟩ := legal i List.mem_cons_self
    obtain ⟨silentU, zerosU⟩ := exec_keeps_silent first noReset other silent
    obtain ⟨silentT, zerosT⟩ := ih rest (fun j hj => legal j (List.mem_cons_of_mem i hj)) silentU
    exact ⟨silentT, zerosU.trans zerosT⟩

/-- Settles O32: with no call in flight a channel with nothing queued is silent, and stays so. -/
theorem silentChannelReturnsZero : Obligations.SilentChannelReturnsZero := by
  intro es s t c idle empty legal run
  obtain ⟨silent, zeros⟩ :=
    execAll_keeps_silent run legal ⟨empty, by rw [idle]; nofun, pendingDelta_idle idle c⟩
  exact ⟨silent.empty, zeros.previousSample, zeros.firstNonzeroSeen, zeros.returned⟩

end Sys2Proof.Machine
end

section
/-!
PROOFS. A call ends (43_velocity_sampler.md R192, R200): a whole call is its accesses, each access brings the end nearer,
and on a fair run every call ends and every queue is filled again.
-/

namespace Sys2Proof.Machine

/-! ### A whole call is its accesses -/

theorem leaveChannel_withPhase (c : Channel) (ph : Phase) (s : State) :
    leaveChannel c { s with smpPhase := ph } = leaveChannel c s := by cases c <;> rfl

/-- Sampling a channel neither reads nor writes the phase. -/
theorem sampleChannel_withPhase (c : Channel) (ph : Phase) (s : State) :
    sampleChannel c { s with smpPhase := ph } = { sampleChannel c s with smpPhase := ph } := by
  rw [sampleChannel_eq, sampleChannel_eq, ch_of_other_fields]
  cases c <;> rfl

theorem execAll_append_next {es fs : List Instr} {s t : State} (h : execAll es s = .next t) :
    execAll (es ++ fs) s = execAll fs t := by rw [execAll_append, h]

/-- One access, and then `k` of them. -/
theorem execAll_accesses_succ {c : Channel} {n : Nat} {s : State} (call : s.smpPhase = .acc c n) (k : Nat) :
    execAll (List.replicate (k + 1) .sstep) s = execAll (List.replicate k .sstep) (accessQueue c n s) := by
  rw [List.replicate_succ, execAll_cons_next (exec_sstep_acc call)]

theorem execAll_one_access {c : Channel} {n : Nat} {s : State} (call : s.smpPhase = .acc c n) :
    execAll (List.replicate 1 .sstep) s = .next (accessQueue c n s) := execAll_accesses_succ call 0

/-- An access inside a drain that finds the queue empty ends the drain, however far the bound is. -/
theorem accessQueue_empty_drain {c : Channel} {n : Nat} {s : State} (later : n ≠ 0) (empty : (s.ch c).queue = [])
    (k : Nat) : accessQueue c n s = leaveChannel c (storeConsultedDelta c (drain c k s)) := by
  rw [accessQueue_nil c n s later empty, drain_eq, empty, List.drop_nil, ← empty, setCh_fields]

/-- From inside a drain: at most the accesses left to the bound, by which the drain and the channel end. -/
theorem drain_is_its_accesses (c : Channel) (left n : Nat) (s : State) (call : s.smpPhase = .acc c n) (later : n ≠ 0)
    (bound : n + left + 1 = s.qdepth) :
    ∃ k, 1 ≤ k ∧ k ≤ left + 1 ∧ execAll (List.replicate k .sstep) s
      = .next (leaveChannel c (storeConsultedDelta c (drain c (left + 1) s))) := by
  induction left generalizing n s with
  | zero =>
    refine ⟨1, Nat.le_refl 1, Nat.le_refl 1, ?_⟩
    rw [execAll_one_access call]
    cases queue : (s.ch c).queue with
    | nil => rw [accessQueue_empty_drain later queue 1]
    | cons w rest =>
      rw [accessQueue_cons c n s w rest queue, drain_eq, queue]
      simp only [later, if_false, bound, if_true]
      rfl
  | succ left ih =>
    cases queue : (s.ch c).queue with
    | nil =>
      refine ⟨1, Nat.le_refl 1, by omega, ?_⟩
      rw [execAll_one_access call, accessQueue_empty_drain later queue]
    | cons w rest =>
      have more : n + 1 ≠ s.qdepth := by omega
      have goes : accessQueue c n s
          = { s.setCh c { s.ch c with queue := rest } with smpPhase := .acc c (n + 1) } := by
        rw [accessQueue_cons c n s w rest queue]
        simp only [later, if_false, more]
      obtain ⟨k, pos, few, run⟩ := ih (n + 1) (accessQueue c n s) (by rw [goes]) (Nat.succ_ne_zero n)
        (by rw [(accessQueue_frame c n s).qdepth]; omega)
      refine ⟨k + 1, by omega, by omega, ?_⟩
      rw [execAll_accesses_succ call, run, goes, drain_eq, drain_eq, queue]
      cases c <;> rfl

/-- From a channel's first access: at most `QDEPTH` accesses, by which the channel is sampled. -/
theorem sampleChannel_is_its_accesses {c : Channel} {s : State} (call : s.smpPhase = .acc c 0) (pos : 1 ≤ s.qdepth) :
    ∃ k, 1 ≤ k ∧ k ≤ s.qdepth
      ∧ execAll (List.replicate k .sstep) s = .next (leaveChannel c (sampleChannel c s)) := by
  cases queue : (s.ch c).queue with
  | nil =>
    refine ⟨1, Nat.le_refl 1, pos, ?_⟩
    rw [execAll_one_access call, accessQueue_first_nil c s queue, sampleChannel_nil c s queue, storeEmptyDelta_eq]
  | cons w rest =>
    have access := accessQueue_cons c 0 s w rest queue
    by_cases bound : s.qdepth = 1
    · refine ⟨1, Nat.le_refl 1, pos, ?_⟩
      rw [execAll_one_access call, access, sampleChannel_cons c s w rest queue, bound]
      cases c <;> rfl
    · obtain ⟨left, depth⟩ : ∃ left, s.qdepth = left + 2 := ⟨s.qdepth - 2, by omega⟩
      simp only [depth, Nat.zero_add, if_true, show (1 = left + 2) = False by simp, if_false] at access
      obtain ⟨k, one, few, run⟩ := drain_is_its_accesses c left 1 (accessQueue c 0 s) (by rw [access]) Nat.one_ne_zero
        (by rw [(accessQueue_frame c 0 s).qdepth]; omega)
      refine ⟨k + 1, by omega, by omega, ?_⟩
      rw [execAll_accesses_succ call, run, access, drain_eq, sampleChannel_cons c s w rest queue, depth]
      cases c <;> rfl

theorem sampledState_withPhase (ph : Phase) (s : State) : sampledState { s with smpPhase := ph } = sampledState s := by
  unfold sampledState
  rw [sampleChannel_withPhase .L ph s, sampleChannel_withPhase .R ph (sampleChannel .L s)]
  rfl

/-- From the beginning of a call: the accesses of L, and then those of R. -/
theorem call_is_its_accesses {s : State} (call : s.smpPhase = .acc .L 0) (pos : 1 ≤ s.qdepth) :
    ∃ k, 2 ≤ k ∧ k ≤ 2 * s.qdepth ∧ execAll (List.replicate k .sstep) s = .next (sampledState s) := by
  obtain ⟨k, one, few, runL⟩ := sampleChannel_is_its_accesses call pos
  have depth : (leaveChannel .L (sampleChannel .L s)).qdepth = s.qdepth := qdepth_sampleChannel .L s
  obtain ⟨m, one', few', runR⟩ :=
    sampleChannel_is_its_accesses (c := .R) (s := leaveChannel .L (sampleChannel .L s)) rfl (by rwa [depth])
  rw [depth] at few'
  have whole : leaveChannel .R (sampleChannel .R (leaveChannel .L (sampleChannel .L s))) = sampledState s := by
    show leaveChannel .R (sampleChannel .R { sampleChannel .L s with smpPhase := .acc .R 0 }) = _
    rw [sampleChannel_withPhase, leaveChannel_withPhase]
    rfl
  refine ⟨k + m, by omega, by omega, ?_⟩
  rw [List.replicate_add, execAll_append_next runL, runR, whole]

/-- Settles O29: after `S{` come the accesses of the call. -/
theorem sampleIsItsAccesses : Obligations.SampleIsItsAccesses := by
  intro s idle pos
  obtain ⟨k, two, few, run⟩ := call_is_its_accesses (s := { s with smpPhase := .acc .L 0 }) rfl pos
  refine ⟨k, two, few, ?_⟩
  rw [execAll_cons_next (exec_sbegin_idle idle), run, sampledState_withPhase, exec_sample_idle idle]

/-! ### Each access brings the end nearer (R200) -/

theorem accessesLeft_idle {s : State} (idle : s.smpPhase = .idle) : accessesLeft s = 0 := by
  rw [accessesLeft, idle]

theorem accessesLeft_L {s : State} {n : Nat} (call : s.smpPhase = .acc .L n) :
    accessesLeft s = (s.qdepth - n) + s.qdepth := by rw [accessesLeft, call]

theorem accessesLeft_R {s : State} {n : Nat} (call : s.smpPhase = .acc .R n) :
    accessesLeft s = s.qdepth - n := by rw [accessesLeft, call]

theorem accessesLeft_le (s : State) : accessesLeft s ≤ 2 * s.qdepth := by
  cases phase : s.smpPhase with
  | idle => rw [accessesLeft_idle phase]; exact Nat.zero_le _
  | acc c n =>
    cases c with
    | L => rw [accessesLeft_L phase]; omega
    | R => rw [accessesLeft_R phase]; omega

theorem accessesLeft_eq_zero_iff {s : State} (inRange : s.smpPhase.inRange s.qdepth) :
    accessesLeft s = 0 ↔ s.smpPhase = .idle := by
  refine ⟨fun none => ?_, accessesLeft_idle⟩
  cases phase : s.smpPhase with
  | idle => rfl
  | acc c n =>
    rw [phase] at inRange
    change n < s.qdepth at inRange
    cases c with
    | L => rw [accessesLeft_L phase] at none; omega
    | R => rw [accessesLeft_R phase] at none; omega

theorem accessesLeft_congr {s t : State} (phase : t.smpPhase = s.smpPhase) (depth : t.qdepth = s.qdepth) :
    accessesLeft t = accessesLeft s := by rw [accessesLeft, accessesLeft, phase, depth]

/-- An access leaves fewer to make, and the phase in range. -/
theorem accessQueue_brings_end_nearer {c : Channel} {n : Nat} {s : State} (call : s.smpPhase = .acc c n)
    (inRange : n < s.qdepth) :
    accessesLeft (accessQueue c n s) < accessesLeft s
      ∧ (accessQueue c n s).smpPhase.inRange (accessQueue c n s).qdepth := by
  have depth := (accessQueue_frame c n s).qdepth
  rcases accessQueue_ends_or_goes_on call with ⟨first, ends, -⟩ | goesOn
  · cases c with
    | L =>
      obtain ⟨phase, -⟩ := ends.left rfl
      rw [accessesLeft_R phase, accessesLeft_L call, phase, depth]
      exact ⟨by omega, Nat.zero_lt_of_lt inRange⟩
    | R =>
      have idle := (ends.right rfl).idle
      rw [accessesLeft_idle idle, accessesLeft_R call, idle]
      exact ⟨by omega, trivial⟩
  · have phase := goesOn.phase
    have more : n + 1 < s.qdepth := Nat.lt_of_le_of_ne inRange goesOn.bound
    rw [phase, depth]
    refine ⟨?_, more⟩
    cases c with
    | L => rw [accessesLeft_L phase, accessesLeft_L call, depth]; omega
    | R => rw [accessesLeft_R phase, accessesLeft_R call, depth]; omega

/-- Settles O30. -/
theorem everyAccessBringsTheEndNearer : Obligations.EveryAccessBringsTheEndNearer := by
  intro s inRange pos
  refine ⟨fun call => ?_, accessesLeft_le s, accessesLeft_eq_zero_iff inRange, fun c p => ?_⟩
  · cases phase : s.smpPhase with
    | idle => exact absurd phase call
    | acc c n =>
      rw [phase] at inRange
      exact ⟨_, exec_sstep_acc phase, accessQueue_brings_end_nearer phase inRange⟩
  · exact ⟨_, exec_dstep_eq c p s, accessesLeft_congr (smpPhase_stepAtKey ..) (qdepth_stepAtKey ..)⟩

/-! ### Fair runs (R175, R200, D24) -/

/-- An event of a run that completes with a call in flight ends the call, or leaves no more accesses than before; an access
leaves fewer. -/
theorem exec_in_call {i : Instr} {s t : State} (event : i.isEvent = true) (run : exec i s = .next t)
    (inv : MachineInv s) (call : s.smpPhase ≠ .idle) :
    t.smpPhase = .idle ∨ (i ≠ .reset ∧ accessesLeft t ≤ accessesLeft s
      ∧ (i = .sstep → accessesLeft t < accessesLeft s)) := by
  cases completes_of_exec run with
  | decoder own key =>
    obtain ⟨p, rfl⟩ := eq_dstep_of_isEvent own event
    exact .inr ⟨nofun, Nat.le_of_eq (accessesLeft_congr (smpPhase_stepAtKey ..) (qdepth_stepAtKey ..)), nofun⟩
  | sample idle => exact absurd idle call
  | sbegin idle => exact absurd idle call
  | @sstep c n phase =>
    have inRange := inv.phase
    rw [phase] at inRange
    obtain ⟨fewer, -⟩ := accessQueue_brings_end_nearer phase inRange
    exact .inr ⟨nofun, Nat.le_of_lt fewer, fun _ => fewer⟩
  | reset => exact .inl rfl

section FairRun

variable {e : Nat → Instr} {σ : Nat → State}

theorem InfiniteRun.invariant (run : InfiniteRun e σ) (start : MachineInv (σ 0)) (n : Nat) : MachineInv (σ n) := by
  induction n with
  | zero => exact start
  | succ n ih => exact exec_keeps_invariant ih (run.runs n)

/-- Up to any later point the call has ended, or it is still in flight with no more accesses left. -/
theorem InfiniteRun.call_ends_or_stays (run : InfiniteRun e σ) (start : MachineInv (σ 0)) (n d : Nat) :
    (∃ m, n ≤ m ∧ (σ m).smpPhase = .idle)
      ∨ ((σ (n + d)).smpPhase ≠ .idle ∧ accessesLeft (σ (n + d)) ≤ accessesLeft (σ n)) := by
  induction d with
  | zero =>
    by_cases idle : (σ n).smpPhase = .idle
    · exact .inl ⟨n, Nat.le_refl n, idle⟩
    · exact .inr ⟨idle, Nat.le_refl _⟩
  | succ d ih =>
    rcases ih with ended | ⟨call, fewer⟩
    · exact .inl ended
    · by_cases idle : (σ (n + d + 1)).smpPhase = .idle
      · exact .inl ⟨n + d + 1, by omega, idle⟩
      · rcases exec_in_call (run.events _) (run.runs (n + d)) (run.invariant start _) call with ended | ⟨-, less, -⟩
        · exact absurd ended idle
        · exact .inr ⟨idle, less.trans fewer⟩

/-- With at most `a` accesses left the call ends: the next access or reset that fairness brings ends it or leaves fewer. -/
theorem InfiniteRun.call_ends (run : InfiniteRun e σ) (fair : WeaklyFair e σ) (start : MachineInv (σ 0)) (a n : Nat)
    (left : accessesLeft (σ n) ≤ a) : ∃ m, n ≤ m ∧ (σ m).smpPhase = .idle := by
  induction a generalizing n with
  | zero =>
    have none := Nat.le_zero.1 left
    exact ⟨n, Nat.le_refl n, (accessesLeft_eq_zero_iff (run.invariant start n).phase).1 none⟩
  | succ a ih =>
    by_cases idle : (σ n).smpPhase = .idle
    · exact ⟨n, Nat.le_refl n, idle⟩
    obtain ⟨m, later, next⟩ := fair.calls n idle
    obtain ⟨d, rfl⟩ := Nat.exists_eq_add_of_le later
    rcases run.call_ends_or_stays start n d with ended | ⟨call, fewer⟩
    · exact ended
    rcases exec_in_call (run.events _) (run.runs (n + d)) (run.invariant start _) call with ended | ⟨noReset, -, less⟩
    · exact ⟨n + d + 1, by omega, ended⟩
    · have access := less (next.resolve_right noReset)
      obtain ⟨k, after, ended⟩ := ih (n + d + 1) (by omega)
      exact ⟨k, by omega, ended⟩

end FairRun

/-- Settles O51. -/
theorem fairRunsEndEveryCall : Obligations.FairRunsEndEveryCall :=
  fun _ _ start run fair n => run.call_ends fair start _ n (Nat.le_refl _)

/-- A step of a decoder leaves a word queued where the queue has a capacity. -/
theorem queue_stepAtKey_ne_nil {c : Channel} {s : State} (k : Key) (pos : 1 ≤ s.qdepth) :
    ((stepAtKey c k s).ch c).queue ≠ [] := by
  rw [queue_stepAtKey]
  split
  · simp
  · rename_i full
    intro empty
    rw [empty] at full
    exact full pos

/-- Settles O52: after the decoder's next step its queue holds a word. -/
theorem fairRunsRefillEveryQueue : Obligations.FairRunsRefillEveryQueue := by
  intro e σ c start run fair n
  obtain ⟨m, later, p, step⟩ := fair.decoders c n
  have next := run.runs m
  rw [step, exec_dstep_eq] at next
  injection next with next
  refine ⟨m + 1, by omega, ⟨p, step⟩, ?_⟩
  rw [← next]
  exact queue_stepAtKey_ne_nil _ (run.invariant start m).qdepth_pos

end Sys2Proof.Machine
end

section
/-!
PROOFS. Whole steps (20_memory.md R68): the event a step takes in and runs, the free choice where none is placed, the
register that no step reads before it is written, and a placed trace as the list of its events.
-/

namespace Sys2Proof.Machine

/-! ### The event a step takes in -/

theorem consumeEvent_cons {s : State} {b : Byte} {rest : List Byte} (h : s.trace = b :: rest) :
    consumeEvent s = { s with trace := rest } := by unfold consumeEvent; rw [h]

theorem consumeEvent_nil {s : State} (h : s.trace = []) : consumeEvent s = { s with drawn := s.drawn + 1 } := by
  unfold consumeEvent; rw [h]

theorem step_of_error {s : State} {e : DecodeError} (h : nextEvent s = .error e) : step s = .refused (refusalOf e) := by
  unfold step; rw [h]

theorem step_cons {s : State} {b : Byte} {rest : List Byte} {i : Instr} (h : s.trace = b :: rest)
    (word : decode (.evt8 b) = .ok i) : step s = exec i { s with trace := rest } := by
  rw [step_of_nextEvent ((nextEvent_cons h).trans word), consumeEvent_cons h]

theorem step_nil {s : State} (h : s.trace = []) :
    step s = exec (choiceAt s.drawn (busy s)) { s with drawn := s.drawn + 1 } := by
  rw [step_of_nextEvent (nextEvent_nil h), consumeEvent_nil h]

/-- A byte that does not decode is refused by its own name (R97). -/
theorem eq_malformedEvent_of_decode {b : Byte} {e : DecodeError} (h : decode (.evt8 b) = .error e) :
    e = .malformedEvent b := by
  change decodeEvent b = .error e at h
  unfold decodeEvent at h
  split_ifs at h
  cases h
  rfl

/-- Settles O44. -/
theorem stepRunsTheDecodedEvent : Obligations.StepRunsTheDecodedEvent := by
  intro s b rest h
  refine ⟨fun i word => step_cons h word, fun e word => ?_⟩
  cases eq_malformedEvent_of_decode word
  exact ⟨rfl, step_of_error ((nextEvent_cons h).trans word)⟩

/-- Settles O45: the event is the environment's choice, which is legal. -/
theorem freeEnvironmentNeverStalls : Obligations.FreeEnvironmentNeverStalls := by
  intro s h
  obtain ⟨event, noReset, access⟩ := choiceAt_legal s.drawn (busy s)
  have inCall : choiceAt s.drawn (busy s) = .sstep → s.smpPhase ≠ .idle := fun e => (busy_iff s).1 (access e)
  refine ⟨_, event, noReset, step_nil h, inCall, ?_⟩
  rw [step_nil h]
  rcases nothingElseStops (choiceAt s.drawn (busy s)) { s with drawn := s.drawn + 1 } with
    completes | ⟨-, call, fault⟩ | ⟨outside, idle, -⟩
  · exact .inl completes
  · exact .inr ⟨call, fault⟩
  · exact absurd idle (inCall outside)

/-! ### `SMP.cur` is never read before it is written (R30, U6) -/

/-- The state with another value in `SMP.cur`. -/
def State.withCur (s : State) (v : Word) : State := { s with smpCur := v }

@[simp] theorem ch_withCur (s : State) (v : Word) (c : Channel) : (s.withCur v).ch c = s.ch c := by cases c <;> rfl
@[simp] theorem smpPhase_withCur (s : State) (v : Word) : (s.withCur v).smpPhase = s.smpPhase := rfl

theorem sampleChannel_withCur (c : Channel) (v : Word) (s : State) :
    sampleChannel c (s.withCur v) = (sampleChannel c s).withCur ((s.ch c).queue.head?.getD v) := by
  rw [sampleChannel_eq, sampleChannel_eq, ch_withCur]
  cases c <;> rfl

theorem sampledState_withCur (v : Word) (s : State) :
    ∃ u, sampledState (s.withCur v) = (sampledState s).withCur u := by
  refine ⟨((sampleChannel .L s).ch .R).queue.head?.getD ((s.ch .L).queue.head?.getD v), ?_⟩
  unfold sampledState
  rw [sampleChannel_withCur, sampleChannel_withCur]
  rfl

/-- Two next states that differ in `SMP.cur` alone, outside a drain. -/
theorem alikeButCur_next {t : State} (outside : draining t = false) (u : Word) :
    AlikeButCur (.next t) (.next (t.withCur u)) := .inr ⟨outside, rfl⟩

theorem draining_idle {s : State} (idle : s.smpPhase = .idle) : draining s = false := by rw [draining, idle]

theorem draining_congr {s t : State} (h : t.smpPhase = s.smpPhase) : draining t = draining s := by
  rw [draining, draining, h]

/-- Once a channel is left its drain is over. -/
theorem draining_leaveChannel (c : Channel) (s : State) : draining (leaveChannel c s) = false := by cases c <;> rfl

theorem stepAtKey_withCur (c : Channel) (k : Key) (v : Word) (s : State) :
    stepAtKey c k (s.withCur v) = (stepAtKey c k s).withCur v := by
  rw [stepAtKey_eq, stepAtKey_eq, ch_withCur]
  cases c <;> rfl

/-- A decoder step does not know `SMP.cur`. -/
theorem stepAtKey_alike (c : Channel) (k : Key) (v : Word) {s : State} (outside : draining s = false) :
    AlikeButCur (.next (stepAtKey c k s)) (.next (stepAtKey c k (s.withCur v))) := by
  rw [stepAtKey_withCur]
  exact alikeButCur_next ((draining_congr (smpPhase_stepAtKey c k s)).trans outside) v

/-- The first access of a channel writes `SMP.cur` or leaves it. -/
theorem accessQueue_first_alike (c : Channel) (v : Word) (s : State) :
    AlikeButCur (.next (accessQueue c 0 s)) (.next (accessQueue c 0 (s.withCur v))) := by
  cases queue : (s.ch c).queue with
  | nil =>
    have same : leaveChannel c (storeEmptyDelta c (s.withCur v))
        = (leaveChannel c (storeEmptyDelta c s)).withCur v := by cases c <;> rfl
    rw [accessQueue_first_nil c s queue, accessQueue_first_nil c _ (by rw [ch_withCur, queue]), same]
    exact alikeButCur_next (draining_leaveChannel c _) v
  | cons w rest =>
    rw [accessQueue_cons c 0 s w rest queue, accessQueue_cons c 0 _ w rest (by rw [ch_withCur, queue]), ch_withCur]
    exact .inl rfl

theorem exec_alike_but_cur (i : Instr) (v : Word) {s : State} (outside : draining s = false) :
    AlikeButCur (exec i s) (exec i (s.withCur v)) := by
  have phase := smpPhase_withCur s v
  rcases instr_cases i with ⟨c, k, rfl⟩ | ⟨c, p, rfl⟩ | rfl | rfl | rfl | rfl
  · rw [exec_decodeKey, exec_decodeKey]
    exact stepAtKey_alike c k v outside
  · rw [exec_dstep_eq, exec_dstep_eq, presentedKey_of_ch_eq p (ch_withCur s v c)]
    exact stepAtKey_alike c _ v outside
  · by_cases idle : s.smpPhase = .idle
    · obtain ⟨u, same⟩ := sampledState_withCur v s
      rw [exec_sample_idle idle, exec_sample_idle (phase.trans idle), same]
      exact alikeButCur_next (draining_idle (sampledState_returned s).idle) u
    · rw [exec_sample_busy idle, exec_sample_busy (by rwa [phase])]
      rfl
  · by_cases idle : s.smpPhase = .idle
    · rw [exec_sbegin_idle idle, exec_sbegin_idle (phase.trans idle)]
      exact alikeButCur_next (t := { s with smpPhase := .acc .L 0 }) rfl v
    · rw [exec_sbegin_busy idle, exec_sbegin_busy (by rwa [phase])]
      rfl
  · cases call : s.smpPhase with
    | idle =>
      rw [exec_sstep_idle call, exec_sstep_idle (phase.trans call)]
      rfl
    | acc c n =>
      have first : n = 0 := by
        rw [draining, call] at outside
        simpa using outside
      subst first
      rw [exec_sstep_acc call, exec_sstep_acc (phase.trans call)]
      exact accessQueue_first_alike c v s
  · exact .inl rfl

theorem consumeEvent_withCur (s : State) (v : Word) : consumeEvent (s.withCur v) = (consumeEvent s).withCur v := by
  cases trace : s.trace with
  | nil => rw [consumeEvent_nil trace, consumeEvent_nil (s := s.withCur v) trace]; rfl
  | cons b rest => rw [consumeEvent_cons trace, consumeEvent_cons (s := s.withCur v) trace]; rfl

theorem smpPhase_consumeEvent (s : State) : (consumeEvent s).smpPhase = s.smpPhase := by
  unfold consumeEvent
  split <;> rfl

/-- Settles O37: the next event and what it is executed on do not depend on `SMP.cur`, and neither does the event. -/
theorem curIsNeverReadBeforeWritten : Obligations.CurIsNeverReadBeforeWritten := by
  intro s v outside
  show AlikeButCur (step s) (step (s.withCur v))
  have event : nextEvent (s.withCur v) = nextEvent s := rfl
  cases next : nextEvent s with
  | ok i =>
    rw [step_of_nextEvent next, step_of_nextEvent (event.trans next), consumeEvent_withCur]
    exact exec_alike_but_cur i v ((draining_congr (smpPhase_consumeEvent s)).trans outside)
  | error e =>
    rw [step_of_error next, step_of_error (event.trans next)]
    rfl

/-! ### A placed trace runs as its events -/

/-- The state with other events lined up. -/
def State.withTrace (s : State) (tr : List Byte) : State := { s with trace := tr }

@[simp] theorem ch_withTrace (s : State) (tr : List Byte) (c : Channel) : (s.withTrace tr).ch c = s.ch c := by
  cases c <;> rfl
@[simp] theorem smpPhase_withTrace (s : State) (tr : List Byte) : (s.withTrace tr).smpPhase = s.smpPhase := rfl
@[simp] theorem qdepth_withTrace (s : State) (tr : List Byte) : (s.withTrace tr).qdepth = s.qdepth := rfl

theorem stepAtKey_withTrace (c : Channel) (k : Key) (tr : List Byte) (s : State) :
    stepAtKey c k (s.withTrace tr) = (stepAtKey c k s).withTrace tr := by
  rw [stepAtKey_eq, stepAtKey_eq, ch_withTrace]
  cases c <;> rfl

theorem sampleChannel_withTrace (c : Channel) (tr : List Byte) (s : State) :
    sampleChannel c (s.withTrace tr) = (sampleChannel c s).withTrace tr := by
  rw [sampleChannel_eq, sampleChannel_eq, ch_withTrace]
  cases c <;> rfl

theorem sampledState_withTrace (tr : List Byte) (s : State) :
    sampledState (s.withTrace tr) = (sampledState s).withTrace tr := by
  unfold sampledState
  rw [sampleChannel_withTrace, sampleChannel_withTrace]
  rfl

theorem accessQueue_withTrace (c : Channel) (n : Nat) (tr : List Byte) (s : State) :
    accessQueue c n (s.withTrace tr) = (accessQueue c n s).withTrace tr := by
  have accessed : accessedState c n (s.withTrace tr) = (accessedState c n s).withTrace tr := by cases c <;> rfl
  rw [accessQueue_eq, accessQueue_eq, accessed, ch_withTrace, qdepth_withTrace]
  split
  · cases c <;> rfl
  · rfl

/-- No event reads or writes what is lined up after it. -/
theorem exec_withTrace (i : Instr) (tr : List Byte) (s : State) :
    exec i (s.withTrace tr) = onNext (·.withTrace tr) (exec i s) := by
  have phase := smpPhase_withTrace s tr
  rcases instr_cases i with ⟨c, k, rfl⟩ | ⟨c, p, rfl⟩ | rfl | rfl | rfl | rfl
  · rw [exec_decodeKey, exec_decodeKey, stepAtKey_withTrace]; rfl
  · rw [exec_dstep_eq, exec_dstep_eq, presentedKey_of_ch_eq p (ch_withTrace s tr c), stepAtKey_withTrace]; rfl
  · by_cases idle : s.smpPhase = .idle
    · rw [exec_sample_idle idle, exec_sample_idle (phase.trans idle), sampledState_withTrace]; rfl
    · rw [exec_sample_busy idle, exec_sample_busy (by rwa [phase])]; rfl
  · by_cases idle : s.smpPhase = .idle
    · rw [exec_sbegin_idle idle, exec_sbegin_idle (phase.trans idle)]; rfl
    · rw [exec_sbegin_busy idle, exec_sbegin_busy (by rwa [phase])]; rfl
  · cases call : s.smpPhase with
    | idle => rw [exec_sstep_idle call, exec_sstep_idle (phase.trans call)]; rfl
    | acc c n => rw [exec_sstep_acc call, exec_sstep_acc (phase.trans call), accessQueue_withTrace]; rfl
  · rfl

/-- What an event leaves lined up is what was. -/
theorem trace_of_exec {i : Instr} {s t : State} (run : exec i s = .next t) : t.trace = s.trace := by
  have same := exec_withTrace i s.trace s
  rw [show s.withTrace s.trace = s from rfl, run] at same
  injection same with same
  have kept := congrArg State.trace same
  exact kept

theorem run_succ_of_next {s t : State} (h : step s = .next t) (k : Nat) :
    Host.Core.run Sys2Proof.core (k + 1) s = Host.Core.run Sys2Proof.core k t := by
  have h' : Sys2Proof.core.step s = .next t := h
  simp only [Host.Core.run, h']

theorem run_succ_of_fault {s : State} {r : Fault} (h : step s = .fault r) (k : Nat) :
    Host.Core.run Sys2Proof.core (k + 1) s = .fault r := by
  have h' : Sys2Proof.core.step s = .fault r := h
  simp only [Host.Core.run, h']

theorem run_succ_of_refused {s : State} {r : Refusal} (h : step s = .refused r) (k : Nat) :
    Host.Core.run Sys2Proof.core (k + 1) s = .refused r := by
  have h' : Sys2Proof.core.step s = .refused r := h
  simp only [Host.Core.run, h']

/-- The events of a placed trace run one after the other, whatever is lined up behind them. -/
theorem run_placed (es : List Instr) (rest : List Byte) (s : State) (events : ∀ i ∈ es, i.isEvent = true)
    (placed : s.trace = es.map byteOf ++ rest) :
    Host.Core.run Sys2Proof.core es.length s = execAll es (s.withTrace rest) := by
  induction es generalizing s with
  | nil =>
    have same : s.withTrace rest = s := by rw [← List.nil_append rest, ← List.map_nil, ← placed]; rfl
    rw [same]
    rfl
  | cons i es ih =>
    have one : step s = exec i (s.withTrace (es.map byteOf ++ rest)) :=
      step_cons placed (decode_byteOf (events i List.mem_cons_self))
    have moved := exec_withTrace i rest (s.withTrace (es.map byteOf ++ rest))
    change exec i (s.withTrace rest) = _ at moved
    rw [← one] at moved
    rw [List.length_cons, execAll, moved]
    cases outcome : step s with
    | next t =>
      have left := trace_of_exec (one.symm.trans outcome)
      rw [run_succ_of_next outcome]
      exact ih t (fun j hj => events j (List.mem_cons_of_mem i hj)) left
    | fault r => exact run_succ_of_fault outcome _
    | refused r => exact run_succ_of_refused outcome _

/-- Settles O46. -/
theorem traceRunsAsItsEvents : Obligations.TraceRunsAsItsEvents := run_placed

end Sys2Proof.Machine
end

section
/-!
PROOFS. Written traces (30_encoding.md R100): the expansion of the shorthands and the keys of a program follow the readings
that the run leaves.
-/

namespace Sys2Proof.Machine

/-- Two states with the same previous readings. -/
def SameReadings (s t : State) : Prop := ∀ c, (s.ch c).prevPins = (t.ch c).prevPins

theorem SameReadings.latchReading {s t : State} (h : SameReadings s t) (i : Instr) :
    SameReadings (latchReading s i) (latchReading t i) := by
  intro c
  cases i with
  | dstep d p => rw [latchReading_ch_prevPins, latchReading_ch_prevPins, h c]
  | reset => cases c <;> rfl
  | _ => exact h c

theorem SameReadings.foldl_latchReading {s t : State} (h : SameReadings s t) (es : List Instr) :
    SameReadings (es.foldl Machine.latchReading s) (es.foldl Machine.latchReading t) := by
  induction es generalizing s t with
  | nil => exact h
  | cons i es ih => exact ih (h.latchReading i)

/-- A list of events that completes leaves the readings that the expansion reckons with. -/
theorem execAll_latches {es : List Instr} {s t : State} (events : ∀ i ∈ es, i.isEvent = true)
    (run : execAll es s = .next t) : SameReadings (es.foldl latchReading s) t := by
  induction es generalizing s with
  | nil =>
    cases run
    exact fun _ => rfl
  | cons i es ih =>
    obtain ⟨u, first, rest⟩ := execAll_cons_inv run
    have latched : SameReadings (latchReading s i) u :=
      fun c => (exec_latches (events i List.mem_cons_self) first c).symm
    exact fun c => (latched.foldl_latchReading es c).trans
      (ih (fun j hj => events j (List.mem_cons_of_mem i hj)) rest c)

/-! ### The shorthands -/

theorem traceEvents_isEvent (s : State) (ks : List Token) : ∀ i ∈ traceEvents s ks, i.isEvent = true := by
  induction ks generalizing s with
  | nil => nofun
  | cons k ks ih =>
    intro i hi
    rw [traceEvents, List.mem_append] at hi
    exact hi.elim (tokenEvents_isEvent s k i) (ih _ i)

/-- The events worked out before the run do what the tokens do. -/
theorem execAll_traceEvents (ks : List Token) (s : State) : execAll (traceEvents s ks) s = execTokens ks s := by
  induction ks generalizing s with
  | nil => rfl
  | cons k ks ih =>
    rw [traceEvents, execAll_append, execTokens]
    cases run : execAll (tokenEvents s k) s with
    | next t =>
      have expanded := traceEvents_congr ks _ t (execAll_latches (tokenEvents_isEvent s k) run)
      dsimp only
      rw [expanded, ih]
    | fault r => rfl
    | refused r => rfl

/-- Settles O48: as events, and as the bytes of those events. -/
theorem shorthandsExpandWhereTheyStand : Obligations.ShorthandsExpandWhereTheyStand := by
  refine ⟨execAll_traceEvents, fun ks s rest placed => ?_⟩
  have same : traceEvents s ks = traceEvents (s.withTrace rest) ks :=
    traceEvents_congr ks _ _ fun c => by rw [ch_withTrace]
  rw [run_placed _ rest s (traceEvents_isEvent s ks) placed, same]
  exact execAll_traceEvents ks (s.withTrace rest)

/-! ### The keys of a program -/

theorem keyPresented_congr {s t : State} (h : SameReadings s t) (c : Channel) (i : Instr) :
    keyPresented c s i = keyPresented c t i := by
  cases i with
  | dstep d p => rw [keyPresented, keyPresented, presentedKey, presentedKey, h d]
  | _ => rfl

theorem programKeys_congr {s t : State} (h : SameReadings s t) (c : Channel) (es : List Instr) :
    programKeys c s es = programKeys c t es := by
  induction es generalizing s t with
  | nil => rfl
  | cons i es ih => rw [programKeys, programKeys, keyPresented_congr h, ih (h.latchReading i)]

theorem programKeys_append (c : Channel) (s : State) (es fs : List Instr) :
    programKeys c s (es ++ fs) = programKeys c s es ++ programKeys c (es.foldl latchReading s) fs := by
  induction es generalizing s with
  | nil => rfl
  | cons i es ih => rw [List.cons_append, programKeys, programKeys, ih, List.append_assoc, List.foldl_cons]

/-- Settles O49: the last step's key is formed from the reading that the events before it leave. -/
theorem programKeysAreThoseOfTheRun : Obligations.ProgramKeysAreThoseOfTheRun := by
  intro es s t c p events run
  rw [programKeys_append, programKeys_congr (execAll_latches events run), programKeys, keyPresented, if_pos rfl,
    programKeys, List.append_nil]

end Sys2Proof.Machine
end

section
/-!
PROOFS. Weak fairness of the model's schedule (42_edge_decoder.md R175, 43_velocity_sampler.md R200, D24): a placed trace
runs out, and then every agent's turn comes.
-/

namespace Sys2Proof.Machine

/-! ### Coming to a goal -/

/-- From `s` the run comes to a state of the goal, or stops before: by an overlapping call, or, where events were placed,
by a refusal. -/
def ComesTo (placed : Prop) (goal : State → Prop) (s : State) : Prop :=
  ∃ k, (∃ t, Host.Core.run Sys2Proof.core k s = .next t ∧ goal t)
    ∨ Host.Core.run Sys2Proof.core k s = .fault .samplerReentry
    ∨ (placed ∧ ∃ r, Host.Core.run Sys2Proof.core k s = .refused r)

theorem comesTo_now {placed : Prop} {goal : State → Prop} {s : State} (h : goal s) : ComesTo placed goal s :=
  ⟨0, .inl ⟨s, rfl, h⟩⟩

/-- It is enough to come to it from the next state, if there is one. -/
theorem comesTo_of_next {placed : Prop} {goal : State → Prop} {s : State} (legal : s.trace ≠ [] → placed)
    (h : ∀ t, step s = .next t → ComesTo placed goal t) : ComesTo placed goal s := by
  cases outcome : step s with
  | next t =>
    obtain ⟨k, run⟩ := h t outcome
    refine ⟨k + 1, ?_⟩
    rw [run_succ_of_next outcome]
    exact run
  | fault r => exact ⟨1, .inr (.inl (run_succ_of_fault outcome 0))⟩
  | refused r =>
    refine ⟨1, .inr (.inr ⟨legal fun free => ?_, r, run_succ_of_refused outcome 0⟩)⟩
    obtain ⟨-, -, -, -, -, completes | ⟨-, fault⟩⟩ := freeEnvironmentNeverStalls s free
    · obtain ⟨t, next⟩ := completes
      rw [outcome] at next; cases next
    · rw [outcome] at fault; cases fault

/-! ### What a step leaves lined up, and how many choices it has drawn -/

theorem trace_of_step {s t : State} (h : step s = .next t) : t.trace = s.trace.tail := by
  obtain ⟨i, -, run⟩ := exec_of_step h
  rw [trace_of_exec run]
  cases trace : s.trace with
  | nil => rw [consumeEvent_nil trace]; exact trace
  | cons b rest => rw [consumeEvent_cons trace]; rfl

theorem trace_ne_nil_of_step {s t : State} (h : step s = .next t) (placed : t.trace ≠ []) : s.trace ≠ [] := by
  intro free
  rw [trace_of_step h, free] at placed
  exact placed rfl

theorem drawn_of_exec {i : Instr} {s t : State} (run : exec i s = .next t) (noReset : i ≠ .reset) :
    t.drawn = s.drawn := by
  cases completes_of_exec run with
  | decoder own key => exact (stepAtKey_frame _ _ s).drawn
  | sample idle => exact (sampledState_frame s).drawn
  | sbegin idle => rfl
  | sstep call => exact (accessQueue_frame _ _ s).drawn
  | reset => exact absurd rfl noReset

theorem drawn_of_free_step {s t : State} (free : s.trace = []) (h : step s = .next t) : t.drawn = s.drawn + 1 := by
  obtain ⟨-, noReset, -⟩ := choiceAt_legal s.drawn (busy s)
  rw [step_nil free] at h
  exact drawn_of_exec h noReset

/-! ### A placed trace runs out, and a turn comes -/

section ComesTo

variable {placed : Prop} {goal P : State → Prop}
  (legal : ∀ s, P s → s.trace ≠ [] → placed)
  (keeps : ∀ s t, P s → ¬ goal s → step s = .next t → P t)
include legal keeps

/-- With nothing placed: where the goal is met at the draw `m`, it is come to, as every step draws. -/
theorem comesTo_of_turn {m : Nat} (turn : ∀ s, P s → s.trace = [] → s.drawn = m → goal s) (d : Nat) (s : State)
    (hs : P s) (free : s.trace = []) (ahead : s.drawn + d = m) : ComesTo placed goal s := by
  induction d generalizing s with
  | zero => exact comesTo_now (turn s hs free ahead)
  | succ d ih =>
    by_cases now : goal s
    · exact comesTo_now now
    · refine comesTo_of_next (legal s hs) fun t next => ih t (keeps s t hs now next) ?_ ?_
      · rw [trace_of_step next, free]; rfl
      · rw [drawn_of_free_step free next]; omega

/-- The placed trace runs out first, and then the turn of the draw comes. -/
theorem comesTo_of_turns (turns : ∀ n, ∃ m, n ≤ m ∧ ∀ s, P s → s.trace = [] → s.drawn = m → goal s) (s : State)
    (hs : P s) : ComesTo placed goal s := by
  induction trace : s.trace generalizing s with
  | nil =>
    obtain ⟨m, later, turn⟩ := turns s.drawn
    exact comesTo_of_turn legal keeps turn (m - s.drawn) s hs trace (by omega)
  | cons b rest ih =>
    by_cases now : goal s
    · exact comesTo_now now
    · refine comesTo_of_next (legal s hs) fun t next => ih t (keeps s t hs now next) ?_
      rw [trace_of_step next, trace]
      rfl

end ComesTo

/-! ### The two promises of fairness -/

/-- A state that some run from placed events, if `placed`, has come to. -/
def RunsPlaced (placed : Prop) (s : State) : Prop := s.trace ≠ [] → placed

theorem runsPlaced_of_step {placed : Prop} {s t : State} (h : step s = .next t) (hs : RunsPlaced placed s) :
    RunsPlaced placed t := fun more => hs (trace_ne_nil_of_step h more)

/-- Each decoder steps again (R175). -/
theorem comesTo_decoder_step (s : State) (c : Channel) :
    ComesTo (s.trace ≠ []) (fun t => ∃ p, nextEvent t = .ok (.dstep c p)) s := by
  refine comesTo_of_turns (P := RunsPlaced (s.trace ≠ [])) (fun _ h => h)
    (fun _ _ h _ next => runsPlaced_of_step next h) (fun n => ?_) s id
  obtain ⟨m, later, turn⟩ := fairTurn_comes n (.decoder c)
  refine ⟨m, later, fun t _ free drawn => ⟨(Config.freeMove m).extractLsb' 0 2, ?_⟩⟩
  rw [nextEvent_nil free, drawn, choiceAt_decoder turn]

/-- A call in flight stays in flight until its next access or a reset (R191, R241). -/
theorem call_stays {i : Instr} {s t : State} (run : exec i s = .next t) (call : s.smpPhase ≠ .idle)
    (noAccess : i ≠ .sstep) (noReset : i ≠ .reset) : t.smpPhase ≠ .idle := by
  cases completes_of_exec run with
  | decoder own key => rwa [smpPhase_stepAtKey]
  | sample idle => exact absurd idle call
  | sbegin idle => exact absurd idle call
  | sstep _ => exact absurd rfl noAccess
  | reset => exact absurd rfl noReset

/-- A reset is the next event only where it is placed. -/
theorem trace_ne_nil_of_reset {s : State} (h : nextEvent s = .ok .reset) : s.trace ≠ [] := by
  intro free
  obtain ⟨-, noReset, -⟩ := choiceAt_legal s.drawn (busy s)
  rw [nextEvent_nil free] at h
  injection h with h
  exact noReset h

/-- A call in flight takes its next access (R200). -/
theorem comesTo_access {s : State} (call : s.smpPhase ≠ .idle) :
    ComesTo (s.trace ≠ []) (fun t => nextEvent t = .ok .sstep ∨ (s.trace ≠ [] ∧ nextEvent t = .ok .reset)) s := by
  refine comesTo_of_turns (P := fun t => t.smpPhase ≠ .idle ∧ RunsPlaced (s.trace ≠ []) t) (fun _ h => h.2)
    (fun u t hu notNow next => ⟨?_, runsPlaced_of_step next hu.2⟩) (fun n => ?_) s ⟨call, id⟩
  · obtain ⟨i, event, run⟩ := exec_of_step next
    refine call_stays run (by rw [smpPhase_consumeEvent]; exact hu.1) ?_ ?_
    · rintro rfl
      exact notNow (.inl event)
    · rintro rfl
      exact notNow (.inr ⟨hu.2 (trace_ne_nil_of_reset event), event⟩)
  · obtain ⟨m, later, turn⟩ := fairTurn_comes n .sampler
    refine ⟨m, later, fun t ht free drawn => .inl ?_⟩
    rw [nextEvent_nil free, drawn, (busy_iff t).2 ht.1, choiceAt_sampler turn]

/-- Settles O50. -/
theorem theEnvironmentIsWeaklyFair : Obligations.TheEnvironmentIsWeaklyFair := by
  refine ⟨fun s c => ?_, fun s call => comesTo_access call⟩
  obtain ⟨k, ⟨t, run, p, next⟩ | stops⟩ := comesTo_decoder_step s c
  · exact ⟨k, .inl ⟨t, p, run, next⟩⟩
  · exact ⟨k, .inr stops⟩

end Sys2Proof.Machine
end
